-- ==== Sys2Proof/Word.lean ====
section
/-! DEFINITION. The word types of the block: a byte, the 11-bit command word, the 4-bit byte count. -/

namespace Sys2Proof

/-- One byte of the stream (spec/00_scope.md R5: byte width 8 bits). -/
abbrev Byte := BitVec 8

/-- The command word `w[10:0]` of one clock edge (spec/30_encoding.md R55). -/
abbrev CommandWord := BitVec 11

/-- The 4-bit register `bytes_received` (spec/10_state.md R14). -/
abbrev Count := BitVec 4

end Sys2Proof
end

