-- ==== Sys2Proof/Config.lean ====
section
/-! DEFINITION. What is fixed for the block (spec/00_scope.md R5, R6), and the free values: what the spec leaves open. -/

namespace Sys2Proof.Config

/-- `FRAME_LEN`: bytes of a response frame (R5). -/
abbrev frameLen : Nat := 8

/-- `SOF`: the start marker, byte 0 of a frame (R5). -/
abbrev sof : Byte := 0x02

/-- `TYPE`: the response-type (data-result) marker, byte 1 (R5). -/
abbrev typeMarker : Byte := 0x10

/-- `SIZE`: the payload-size marker, byte 2 (R5). -/
abbrev sizeMarker : Byte := 0x04

/-- The checksum complement constant (R5). -/
abbrev complement : Byte := 0xFF

/-- `CLK_HZ`, the open parameter of spec/92_eei_decisions.md D24: a constant without a value; no rule reads it. -/
opaque clkHz : Nat

/-- The 48 register bits before the first reset edge after power-up (spec/70_reset_and_hazards.md R183:
unspecified). A free value. Log entry 6. -/
opaque powerUpBits : BitVec 48

/-- The level of `rst` at the `n`-th edge for which no port sample is scheduled. A free value. Log entry 2. -/
opaque freeRst : Nat → Bool

/-- The command word on the ports at the `n`-th edge for which no port sample is scheduled. A free value.
Log entry 2. -/
opaque freeWord : Nat → CommandWord

end Sys2Proof.Config
end

