-- ==== Sys2Proof/Syntax.lean ====
section
/-! DEFINITION. The five per-cycle commands (spec/opcode_table.json, spec/30_encoding.md R56 to R60). -/

namespace Sys2Proof

/-- One constructor per row of spec/opcode_table.json. Bits the spec calls ignored are no operands (log entry 5). -/
inductive Instr where
  /-- The source offers nothing this cycle (R56, R82). -/
  | nop
  /-- The next byte of the source is offered (R57, R85). -/
  | byte (d : Byte)
  /-- The source is exhausted (R58, R83). -/
  | eos
  /-- The last byte the source holds is offered (R59, R84). -/
  | byteEos (d : Byte)
  /-- Begin a fresh decode attempt (R60, R81). -/
  | start
deriving DecidableEq, Repr

/-- The command's mnemonic, as spec/opcode_table.json spells it. -/
def Instr.mnemonic : Instr → String
  | .nop => "NOP"
  | .byte _ => "BYTE"
  | .eos => "EOS"
  | .byteEos _ => "BYTE_EOS"
  | .start => "START"

end Sys2Proof
end

