-- ==== Sys2Proof/WellFormed.lean ====
section
/-! DEFINITION. The checks on commands and on raw numbers offered as command words. -/

namespace Sys2Proof

/-- Every command is well-formed: its one operand is a byte by its type, and no byte is reserved
(spec/30_encoding.md R61: no illegal or reserved encoding; R65: every byte value is accepted). -/
def Instr.wellFormed : Instr → Bool
  | .nop => true
  | .byte _ => true
  | .eos => true
  | .byteEos _ => true
  | .start => true

/-- A number is a command word when it fits the 11 wires of R55. -/
def commandWordFits (n : Nat) : Bool := decide (n < 2048)

/-- The second byte of a command word laid out in two bytes holds `w[10:8]` in its low three bits and zeros above
(log entry 7). -/
def highByteFits (hi : Byte) : Bool := decide (hi.toNat < 8)

end Sys2Proof
end

