-- ==== Sys2Proof/Decode.lean ====
section
/-! DEFINITION. Decoding and encoding of command words (spec/30_encoding.md section 1). -/

namespace Sys2Proof

/-! ## Fields of the command word (R55) -/

/-- `S = w[10]`, the port `start_i`. -/
def fieldS (w : CommandWord) : Bool := w.getLsbD 10

/-- `E = w[9]`, the port `in_eos_i`. -/
def fieldE (w : CommandWord) : Bool := w.getLsbD 9

/-- `V = w[8]`, the port `in_valid_i`. -/
def fieldV (w : CommandWord) : Bool := w.getLsbD 8

/-- `D = w[7:0]`, the port `in_data_i`. -/
def fieldD (w : CommandWord) : Byte := w.extractLsb' 0 8

/-- `w = {start_i, in_eos_i, in_valid_i, in_data_i}` (R55). -/
def packWord (s e v : Bool) (d : Byte) : CommandWord :=
  BitVec.ofBool s ++ (BitVec.ofBool e ++ (BitVec.ofBool v ++ d))

/-! ## The decoder -/

/-- The command that the fields `S`, `E`, `V`, `D` stand for (R56 to R60). -/
def commandOf : Bool → Bool → Bool → Byte → Instr
  | true, _, _, _ => .start
  | false, false, false, _ => .nop
  | false, false, true, d => .byte d
  | false, true, false, _ => .eos
  | false, true, true, d => .byteEos d

/-- The command a word stands for. Total: the five patterns cover all 2048 words (R61). -/
def decodeWord (w : CommandWord) : Instr := commandOf (fieldS w) (fieldE w) (fieldV w) (fieldD w)

/-- Why a list of bytes is no laid-out command word. Raised by `decodeBytes` only; a step never meets one, since the
ports always carry 11 bits. -/
inductive DecodeError where
  /-- Fewer than two bytes. Raised by `decodeBytes`; safe. -/
  | truncated
  /-- The bits above `w[10]` are not zero. Raised by `decodeBytes`; safe. -/
  | highBitsSet
deriving DecidableEq, Repr

/-- Decodes one command word laid out in two bytes, `w[7:0]` first (DESIGN CHOICE, log entry 7: the spec stores no
command word in memory), and gives the bytes that follow. -/
def decodeBytes : List Byte → Except DecodeError (Instr × List Byte)
  | lo :: hi :: rest =>
    if highByteFits hi then .ok (decodeWord ((hi ++ lo).setWidth 11), rest) else .error .highBitsSet
  | _ => .error .truncated

/-- The command the decoder reads from the word `w` of `nbits` bits (the host's question, one opcode-table row at a
time): bits from `nbits` up are zero. `none` when the number is wider than the 11 command wires. -/
def decodeTableWord (nbits w : Nat) : Option Instr :=
  let v := w % 2 ^ nbits
  if commandWordFits v then
    match decodeBytes [BitVec.ofNat 8 v, BitVec.ofNat 8 (v / 256)] with
    | .ok (i, _) => some i
    | .error _ => none
  else none

/-! ## The encoder -/

/-- The canonical word of a command: its row's match value, with the data byte in `w[7:0]`, and ignored bits 0
(R56 to R60, R68). -/
def encode : Instr → CommandWord
  | .nop => 0x000
  | .byte d => 0x100 ||| d.setWidth 11
  | .eos => 0x200
  | .byteEos d => 0x300 ||| d.setWidth 11
  | .start => 0x400

/-- The canonical word in two bytes, `w[7:0]` first (log entry 7). -/
def encodeBytes (i : Instr) : List Byte :=
  [(encode i).extractLsb' 0 8, (encode i).extractLsb' 8 3 |>.setWidth 8]

/-! ## The opcode table -/

/-- One row of spec/opcode_table.json: a word is the row's when `word &&& mask = pattern`. -/
structure OpcodeRow where
  mnemonic : String
  pattern : CommandWord
  mask : CommandWord
deriving DecidableEq, Repr

/-- spec/opcode_table.json, row by row. -/
def opcodeTable : List OpcodeRow :=
  [ ⟨"NOP", 0x000, 0x700⟩,
    ⟨"BYTE", 0x100, 0x700⟩,
    ⟨"EOS", 0x200, 0x700⟩,
    ⟨"BYTE_EOS", 0x300, 0x700⟩,
    ⟨"START", 0x400, 0x400⟩ ]

/-- Whether a word is one of the row's. -/
def OpcodeRow.covers (row : OpcodeRow) (w : CommandWord) : Bool := w &&& row.mask == row.pattern

/-- The row of a command. -/
def Instr.row : Instr → OpcodeRow
  | .nop => ⟨"NOP", 0x000, 0x700⟩
  | .byte _ => ⟨"BYTE", 0x100, 0x700⟩
  | .eos => ⟨"EOS", 0x200, 0x700⟩
  | .byteEos _ => ⟨"BYTE_EOS", 0x300, 0x700⟩
  | .start => ⟨"START", 0x400, 0x400⟩

end Sys2Proof
end

