-- ==== Sys2Proof/Machine/State.lean ====
section
/-! DEFINITION. The state of the block as plain data (spec/10_state.md), the state after reset, and the reasons a step
can stop. -/

namespace Sys2Proof.Machine

/-- The 2-bit register `phase` (R13). -/
inductive Phase where
  /-- `2'b00`: no attempt has been started since reset. -/
  | idle
  /-- `2'b01`: an attempt is in progress and bytes are consumed. -/
  | run
  /-- `2'b10`: the attempt has reached a terminal outcome. -/
  | done
  /-- `2'b11`: never written by any rule; a power-up state may hold it (R183). See `Fault.reservedPhase`. -/
  | reserved
deriving DecidableEq, Repr

/-- The 2-bit register `result` (R20; codes in spec/30_encoding.md R62). -/
inductive Result where
  /-- `2'b00`: the checksum byte was right, and a Reading is presented. -/
  | ok
  /-- `2'b01`: the source was exhausted mid-frame. -/
  | incomplete
  /-- `2'b10`: a fixed-position byte did not match its expected marker. -/
  | malformed
  /-- `2'b11`: all positional markers matched but the checksum failed. -/
  | checksumMismatch
deriving DecidableEq, Repr

/-- The complete architectural state of the block, 48 bits (R22). -/
structure Registers where
  /-- `phase[1:0]` (R13). -/
  phase : Phase
  /-- `bytes_received[3:0]`: frame bytes accepted so far in the attempt; the block's sequencing state (R14, R23). -/
  bytesReceived : Count
  /-- `acc[7:0]`, the running checksum accumulator (R15). -/
  acc : Byte
  /-- `status_raw[7:0]`, the byte captured at frame position 3 (R16). -/
  statusRaw : Byte
  /-- `minutes[7:0]`, the byte captured at frame position 4 (R17). -/
  minutes : Byte
  /-- `reading_int[7:0]`, the byte captured at frame position 5 (R18). -/
  readingInt : Byte
  /-- `reading_frac[7:0]`, the byte captured at frame position 6 (R19). -/
  readingFrac : Byte
  /-- `result[1:0]`, the outcome of the attempt (R20). -/
  result : Result
deriving DecidableEq, Repr

/-- The levels of the input ports at one rising edge of `clk` (R12). -/
structure Ports where
  /-- Synchronous reset, active high (R11). -/
  rst : Bool
  /-- `start_i`: begin a fresh decode attempt. -/
  startI : Bool
  /-- `in_eos_i`: the source will offer no further byte in this attempt. -/
  inEosI : Bool
  /-- `in_valid_i`: `in_data_i` carries the next byte of the source. -/
  inValidI : Bool
  /-- `in_data_i[7:0]`: the byte offered. -/
  inDataI : Byte
deriving DecidableEq, Repr

/-- The block's registers, and what the host drives on its ports. -/
structure State where
  /-- The block's own registers: all of the architectural state (R22). -/
  regs : Registers
  /-- The port samples of the coming edges, next edge first. The model's own field (log entry 1). -/
  inputs : List Ports
  /-- How many edges so far had no scheduled sample and took a free one. The model's own field (log entry 2). -/
  draws : Nat
deriving DecidableEq, Repr

/-- The registers after a reset edge (spec/70_reset_and_hazards.md R180). -/
def Registers.reset : Registers where
  phase := .idle
  bytesReceived := 0
  acc := 0
  statusRaw := 0
  minutes := 0
  readingInt := 0
  readingFrac := 0
  result := .ok

/-- The machine right after reset: the registers as R180 leaves them, nothing scheduled on the ports, and no free
sample taken yet (the last two are DESIGN CHOICES of log entries 1 and 2). -/
def State.reset : State where
  regs := Registers.reset
  inputs := []
  draws := 0

/-- The faults of the model: the register values that spec/93_implementation_defined.md section 1 says a bit-level model
records a fault for. Neither is reachable from reset (R30), and a reset edge leaves both. -/
inductive Fault where
  /-- `phase` holds `2'b11`. Raised by `edge` at any edge with `rst = 0`; safe. Log entry 4. -/
  | reservedPhase
  /-- `bytes_received` is nonzero in IDLE, or 9 to 15 in DONE. Raised by `edge` at any edge with `rst = 0`; safe.
  Log entry 4. -/
  | impossibleCount
deriving DecidableEq, Repr

/-- The refusals of the model. -/
inductive Refusal where
  /-- The command has no meaning in the model yet. Raised by `exec`'s refused arms only; safe. No arm raises it: every
  command of the opcode table has its meaning. -/
  | notModelled (mnemonic : String)
deriving DecidableEq, Repr

end Sys2Proof.Machine
end

