-- ==== Sys2Proof/Machine/Checksum.lean ====
section
/-! DEFINITION. `checksum_validator` (spec/42_checksum_validator.md): the accumulator's two update operations, the
expected checksum, and the checksum as a function on a byte string. -/

namespace Sys2Proof.Machine

/-- What `checksum_validator` does to `acc` at an edge: at most one of its two operations (R120). -/
inductive AccOp where
  /-- `acc` keeps its value. -/
  | hold
  /-- `clear` (R121). -/
  | clear
  /-- `add(D)` (R122). -/
  | add (d : Byte)
deriving DecidableEq, Repr

/-- `acc_next`: the accumulator after the operation; the carry out of bit 7 is discarded (R121, R122). -/
def accNext (acc : Byte) : AccOp → Byte
  | .hold => acc
  | .clear => 0
  | .add d => acc + d

/-- The registers after an operation on the accumulator alone. -/
def Registers.accStep (op : AccOp) (r : Registers) : Registers := { r with acc := accNext r.acc op }

/-- `ck_expected = acc ^ 0xFF` (R123). -/
def ckExpected (acc : Byte) : Byte := acc ^^^ Config.complement

/-- `ck_match`: the byte at position 7 is the expected checksum (R125). -/
def ckMatch (acc d : Byte) : Bool := d == ckExpected acc

/-- The sum of a byte string modulo 256. -/
def byteSum (xs : List Byte) : Byte := xs.foldl (· + ·) 0

/-- The checksum of a byte string (R126). -/
def ck (xs : List Byte) : Byte := byteSum xs ^^^ Config.complement

end Sys2Proof.Machine
end

