-- ==== Sys2Proof/Machine/Flags.lean ====
section
/-! DEFINITION. The one-bit conditions: the synchroniser's, and the levels on the status outputs. -/

namespace Sys2Proof.Machine

/-- `sof_match`: the byte is the start marker (spec/00_scope.md R9, spec/41_frame_positions.md R100). -/
def sofMatch (d : Byte) : Bool := d == Config.sof

/-- `sync_fail`: the byte stands at position 0 and is not the start marker (R9). -/
def syncFail (r : Registers) (d : Byte) : Bool := r.bytesReceived == 0 && !sofMatch d

/-- Lock, the whole of the frame synchroniser's state: an attempt is running and has its start marker (R100). -/
def Registers.locked (r : Registers) : Bool := r.phase == .run && decide (1 ≤ r.bytesReceived.toNat)

/-- `in_ready_o = (phase == RUN) && !start_i` (spec/10_state.md R24). -/
def inReady (r : Registers) (startI : Bool) : Bool := r.phase == .run && !startI

/-- `busy_o` (R25). -/
def busy (r : Registers) : Bool := r.phase == .run

/-- `done_o` (R25). -/
def isDone (r : Registers) : Bool := r.phase == .done

/-- `reading_valid_o` (R27). -/
def readingValid (r : Registers) : Bool := r.phase == .done && r.result == .ok

/-- Whether the byte on the ports is consumed at this edge (spec/20_memory.md R41). -/
def consumes (r : Registers) (p : Ports) : Bool := !p.rst && p.inValidI && inReady r p.startI

end Sys2Proof.Machine
end

