-- ==== Sys2Proof/Machine/Operands.lean ====
section
/-! DEFINITION. Operands and codes: the port sample as a command word, the register codes, the 48-bit packing of the
architectural state, and the assembled value of a Reading. -/

namespace Sys2Proof.Machine

/-! ## The command word of a port sample (spec/30_encoding.md R55) -/

/-- The command word the ports carry; `rst` is not part of it. -/
def Ports.word (p : Ports) : CommandWord := packWord p.startI p.inEosI p.inValidI p.inDataI

/-- The port sample that carries a command word, with `rst = 0`. -/
def Ports.ofWord (w : CommandWord) : Ports where
  rst := false
  startI := fieldS w
  inEosI := fieldE w
  inValidI := fieldV w
  inDataI := fieldD w

/-! ## Codes (spec/10_state.md R13, spec/30_encoding.md R62) -/

/-- The bits of `phase`. -/
def Phase.code : Phase → BitVec 2
  | .idle => 0b00
  | .run => 0b01
  | .done => 0b10
  | .reserved => 0b11

/-- The phase whose bits these are. -/
def Phase.ofCode (c : BitVec 2) : Phase :=
  if c = 0b00 then .idle else if c = 0b01 then .run else if c = 0b10 then .done else .reserved

/-- The bits of `result`. -/
def Result.code : Result → BitVec 2
  | .ok => 0b00
  | .incomplete => 0b01
  | .malformed => 0b10
  | .checksumMismatch => 0b11

/-- The result whose bits these are. -/
def Result.ofCode (c : BitVec 2) : Result :=
  if c = 0b00 then .ok else if c = 0b01 then .incomplete else if c = 0b10 then .malformed else .checksumMismatch

/-! ## The architectural state as 48 bits (spec/10_state.md R22) -/

/-- The tuple of R22 as one 48-bit value, first component most significant (an order of the model's own; log entry 6). -/
def Registers.toBits (r : Registers) : BitVec 48 :=
  r.phase.code ++ (r.bytesReceived ++ (r.acc ++ (r.statusRaw ++ (r.minutes ++ (r.readingInt ++
    (r.readingFrac ++ r.result.code))))))

/-- The registers whose 48 bits these are. -/
def Registers.ofBits (b : BitVec 48) : Registers where
  phase := Phase.ofCode (b.extractLsb' 46 2)
  bytesReceived := b.extractLsb' 42 4
  acc := b.extractLsb' 34 8
  statusRaw := b.extractLsb' 26 8
  minutes := b.extractLsb' 18 8
  readingInt := b.extractLsb' 10 8
  readingFrac := b.extractLsb' 2 8
  result := Result.ofCode (b.extractLsb' 0 2)

/-- The block after power-up, before the first reset edge: its 48 register bits are a free value
(spec/70_reset_and_hazards.md R183). -/
def State.powerUp : State where
  regs := Registers.ofBits Config.powerUpBits
  inputs := []
  draws := 0

/-! ## The value of a Reading (spec/30_encoding.md R66) -/

/-- `value_centi = 100 * zext_16(reading_int) + zext_16(reading_frac)`. -/
def valueCenti (readingInt readingFrac : Byte) : BitVec 16 :=
  100 * readingInt.setWidth 16 + readingFrac.setWidth 16

end Sys2Proof.Machine
end

