-- ==== Sys2Proof/Machine/Ops.lean ====
section
/-! DEFINITION. The shared operations: entering and leaving the terminal phase, sampling the ports, and the register
values for which a step records a fault. -/

namespace Sys2Proof.Machine

/-- The state with other registers; what the host drives is untouched. -/
def State.withRegs (s : State) (r : Registers) : State := { s with regs := r }

/-! ## Entering and leaving the terminal phase (spec/60_exceptions.md sections 2 and 4) -/

/-- `raise Terminal(code)`: `phase <- DONE; result <- code`, and nothing else (R151). -/
def Registers.raiseTerminal (code : Result) (r : Registers) : Registers := { r with phase := .done, result := code }

/-- Every register as START leaves it (spec/40_control.md R81): a fresh attempt. With reset, the only way out of DONE
(R158). -/
def Registers.fresh : Registers where
  phase := .run
  bytesReceived := 0
  acc := 0
  statusRaw := 0
  minutes := 0
  readingInt := 0
  readingFrac := 0
  result := .ok

/-- The end of the source: `INCOMPLETE` if the attempt is running, else nothing (R83, R152). -/
def Registers.endOfSource (r : Registers) : Registers :=
  if r.phase = .run then r.raiseTerminal .incomplete else r

/-! ## The ports -/

/-- The free port sample of the `n`-th edge with nothing scheduled (log entry 2). -/
def freePorts (n : Nat) : Ports := { Ports.ofWord (Config.freeWord n) with rst := Config.freeRst n }

/-- The port sample of the coming edge: the next scheduled one, else a free one. -/
def State.sample (s : State) : Ports :=
  match s.inputs with
  | [] => freePorts s.draws
  | p :: _ => p

/-- The state with the coming edge's sample taken off the schedule, or one more free sample counted. -/
def State.advance (s : State) : State :=
  match s.inputs with
  | [] => { s with draws := s.draws + 1 }
  | _ :: ps => { s with inputs := ps }

/-- The state with one sample put before the schedule. -/
def State.schedule (s : State) (p : Ports) : State := { s with inputs := p :: s.inputs }

/-! ## Register values no rule reaches -/

/-- The fault spec/93_implementation_defined.md section 1 asks a bit-level model to record, if any (log entry 4).
In RUN the counts 8 to 15 are no fault: spec/41_frame_positions.md R108 defines them. -/
def Registers.fault? (r : Registers) : Option Fault :=
  match r.phase with
  | .idle => if r.bytesReceived = 0 then none else some .impossibleCount
  | .run => none
  | .done => if r.bytesReceived.toNat ≤ 8 then none else some .impossibleCount
  | .reserved => some .reservedPhase

end Sys2Proof.Machine
end

