-- ==== Sys2Proof/Machine/Positions.lean ====
section
/-! DEFINITION. The position sequencer (spec/41_frame_positions.md): what a consumed byte does at each value of
`bytes_received`. -/

namespace Sys2Proof.Machine

/-- Position 0, the start marker: `frame_synchronizer` (R100). -/
def position0 (d : Byte) (r : Registers) : Registers :=
  if sofMatch d then { r.accStep .clear with bytesReceived := 1 } else r.raiseTerminal .malformed

/-- Position 1, the data-result marker (R101). -/
def position1 (d : Byte) (r : Registers) : Registers :=
  if d = Config.typeMarker then { r.accStep (.add d) with bytesReceived := 2 } else r.raiseTerminal .malformed

/-- Position 2, the payload-size marker (R102). -/
def position2 (d : Byte) (r : Registers) : Registers :=
  if d = Config.sizeMarker then { r.accStep (.add d) with bytesReceived := 3 } else r.raiseTerminal .malformed

/-- Position 3, the status byte (R103). -/
def position3 (d : Byte) (r : Registers) : Registers :=
  { r.accStep (.add d) with statusRaw := d, bytesReceived := 4 }

/-- Position 4, the minutes byte (R104). -/
def position4 (d : Byte) (r : Registers) : Registers :=
  { r.accStep (.add d) with minutes := d, bytesReceived := 5 }

/-- Position 5, the reading's integer part (R105). -/
def position5 (d : Byte) (r : Registers) : Registers :=
  { r.accStep (.add d) with readingInt := d, bytesReceived := 6 }

/-- Position 6, the reading's fractional part (R106). -/
def position6 (d : Byte) (r : Registers) : Registers :=
  { r.accStep (.add d) with readingFrac := d, bytesReceived := 7 }

/-- Position 7, the checksum byte: always terminal (R107). -/
def position7 (d : Byte) (r : Registers) : Registers :=
  Registers.raiseTerminal (if ckMatch r.acc d then .ok else .checksumMismatch) { r with bytesReceived := 8 }

/-- Any other count, 8 to 15: the byte is consumed and the attempt fails (R108). -/
def positionOther (r : Registers) : Registers := r.raiseTerminal .malformed

/-- A consumed byte, processed at the position `bytes_received` holds before the edge (R85). -/
def consume (d : Byte) (r : Registers) : Registers :=
  match r.bytesReceived.toNat with
  | 0 => position0 d r
  | 1 => position1 d r
  | 2 => position2 d r
  | 3 => position3 d r
  | 4 => position4 d r
  | 5 => position5 d r
  | 6 => position6 d r
  | 7 => position7 d r
  | _ => positionOther r

/-- A byte offered without START: consumed in RUN, else left with the source (R85, R86; spec/20_memory.md R42). -/
def offer (d : Byte) (r : Registers) : Registers := if r.phase = .run then consume d r else r

end Sys2Proof.Machine
end

