-- ==== Sys2Proof/Machine/Control.lean ====
section
/-! DEFINITION. The meaning of each command (spec/40_control.md section 2). A meaning changes registers only; the step
around it takes the port sample off the schedule. -/

namespace Sys2Proof.Machine

/-- `NOP`: no register changes (R82). -/
def execNop (s : State) : Host.Outcome State Fault Refusal := .next s

/-- `BYTE D` (R85). -/
def execByte (d : Byte) (s : State) : Host.Outcome State Fault Refusal := .next (s.withRegs (offer d s.regs))

/-- `EOS` (R83). -/
def execEos (s : State) : Host.Outcome State Fault Refusal := .next (s.withRegs s.regs.endOfSource)

/-- `BYTE_EOS D`: the byte first, then the end of the source if the attempt still runs (R84). -/
def execByteEos (d : Byte) (s : State) : Host.Outcome State Fault Refusal :=
  .next (s.withRegs (offer d s.regs).endOfSource)

/-- `START`: a fresh attempt, from every phase (R81). -/
def execStart (s : State) : Host.Outcome State Fault Refusal := .next (s.withRegs Registers.fresh)

end Sys2Proof.Machine
end

