-- ==== Sys2Proof/Machine/Dispatch.lean ====
section
/-! DEFINITION. One arm per command of spec/opcode_table.json. -/

namespace Sys2Proof.Machine

def exec (i : Instr) (s : State) : Host.Outcome State Fault Refusal :=
  match i with
  | .nop => Sys2Proof.Machine.execNop s
  | .byte d => Sys2Proof.Machine.execByte d s
  | .eos => Sys2Proof.Machine.execEos s
  | .byteEos d => Sys2Proof.Machine.execByteEos d s
  | .start => Sys2Proof.Machine.execStart s

end Sys2Proof.Machine
end

