-- ==== Sys2Proof/Machine/Edge.lean ====
section
/-! DEFINITION. One rising edge of `clk` with given port levels (spec/40_control.md R80). -/

namespace Sys2Proof.Machine

/-- The edge at which the ports hold `p`: reset over everything (spec/70_reset_and_hazards.md R181), then the faults of
spec/93_implementation_defined.md section 1, then the command on the ports. -/
def edge (p : Ports) (s : State) : Host.Outcome State Fault Refusal :=
  if p.rst then .next (s.withRegs Registers.reset)
  else
    match s.regs.fault? with
    | some f => .fault f
    | none => exec (decodeWord p.word) s

/-- The state whose next edge carries the command word `w` of `nbits` bits, with `rst = 0`; later samples follow it. -/
def fetchWordFirst (s : State) (nbits w : Nat) : State := s.schedule (Ports.ofWord (BitVec.ofNat 11 (w % 2 ^ nbits)))

end Sys2Proof.Machine
end

