-- ==== Sys2Proof/Machine/Step.lean ====
section
/-! DEFINITION. The step: one rising edge of `clk`. -/

namespace Sys2Proof.Machine

/-- One rising edge: the ports are sampled, and the block acts on the sample (spec/10_state.md R10, R12;
spec/40_control.md R80). -/
def step (s : State) : Host.Outcome State Fault Refusal := edge s.sample s.advance

/-- `s` with the command word on the ports of the very next edge (log entry 3). -/
def State.withFetchWord (s : State) (nbits w : Nat) : State := fetchWordFirst s nbits w

end Sys2Proof.Machine
end

