-- ==== Sys2Proof/Machine/Status.lean ====
section
/-! DEFINITION. `status_decoder` (spec/43_status_decoder.md): the status byte's class. -/

namespace Sys2Proof.Machine

/-- The six categories of a status byte (spec/30_encoding.md R63). -/
inductive StatusClass where
  | underMeasuringWindow
  | underOneHour
  | normal
  | highLevel
  | vibrationError
  | unknown (code : Byte)
deriving DecidableEq, Repr

/-- The category of a status byte: total, an unrecognised byte is `Unknown(code)` (R135, R142). -/
def classify (b : Byte) : StatusClass :=
  if b = 0x00 then .underMeasuringWindow
  else if b = 0x01 then .underOneHour
  else if b = 0x02 then .normal
  else if b = 0x10 then .highLevel
  else if b = 0xE0 then .vibrationError
  else .unknown b

/-- The 3-bit class code (spec/30_encoding.md R63). -/
def StatusClass.code : StatusClass → BitVec 3
  | .underMeasuringWindow => 0
  | .underOneHour => 1
  | .normal => 2
  | .highLevel => 3
  | .vibrationError => 4
  | .unknown _ => 5

/-- `map_status : 8 bits -> 3 bits` (R135). -/
def mapStatus (b : Byte) : BitVec 3 := (classify b).code

end Sys2Proof.Machine
end

