-- ==== Sys2Proof/Machine/Outputs.lean ====
section
/-! DEFINITION. The output ports (spec/10_state.md section 4): functions of the registers and, for `in_ready_o` only,
of `start_i`. -/

namespace Sys2Proof.Machine

/-- The levels of the output ports (R24 to R28). -/
structure Outputs where
  inReadyO : Bool
  busyO : Bool
  doneO : Bool
  resultO : BitVec 2
  bytesReceivedO : BitVec 4
  readingValidO : Bool
  statusRawO : BitVec 8
  statusClassO : BitVec 3
  minutesO : BitVec 8
  readingIntO : BitVec 8
  readingFracO : BitVec 8
  valueCentiO : BitVec 16
deriving DecidableEq, Repr

/-- The outputs with the given registers while `start_i` has the given level. The Reading outputs are forced to 0 unless
`reading_valid_o = 1` (R28). -/
def outputs (r : Registers) (startI : Bool) : Outputs where
  inReadyO := inReady r startI
  busyO := busy r
  doneO := isDone r
  resultO := r.result.code
  bytesReceivedO := r.bytesReceived
  readingValidO := readingValid r
  statusRawO := if readingValid r then r.statusRaw else 0
  statusClassO := if readingValid r then mapStatus r.statusRaw else 0
  minutesO := if readingValid r then r.minutes else 0
  readingIntO := if readingValid r then r.readingInt else 0
  readingFracO := if readingValid r then r.readingFrac else 0
  valueCentiO := if readingValid r then valueCenti r.readingInt r.readingFrac else 0

/-- The outputs in the cycle before the coming edge, with `start_i` at the level that edge will sample (R192). -/
def State.outputs (s : State) : Outputs := Sys2Proof.Machine.outputs s.regs s.sample.startI

end Sys2Proof.Machine
end

