-- ==== Sys2Proof/Machine/Pseudo.lean ====
section
/-! DEFINITION. Pseudo-instructions and the assembler's line form (spec/30_encoding.md section 5), and a list of
commands as port samples. -/

namespace Sys2Proof.Machine

/-- The pseudo-instructions of R69. -/
inductive Pseudo where
  | frame (b0 b1 b2 b3 b4 b5 b6 b7 : Byte)
  | response (st mi ri rf : Byte)
  | decode (b0 b1 b2 b3 b4 b5 b6 b7 : Byte)
  | wait (k : Nat)
deriving DecidableEq, Repr

/-- The commands that offer the given bytes, one an edge. -/
def byteCommands (bs : List Byte) : List Instr := bs.map Instr.byte

/-- A fresh attempt over the given bytes. -/
def attemptCommands (bs : List Byte) : List Instr := .start :: byteCommands bs

/-- The commands a pseudo-instruction abbreviates (R69). RESPONSE appends the checksum of R126. -/
def Pseudo.expand : Pseudo → List Instr
  | .frame b0 b1 b2 b3 b4 b5 b6 b7 => byteCommands [b0, b1, b2, b3, b4, b5, b6, b7]
  | .response st mi ri rf =>
    byteCommands [Config.sof, Config.typeMarker, Config.sizeMarker, st, mi, ri, rf,
      ck [Config.typeMarker, Config.sizeMarker, st, mi, ri, rf]]
  | .decode b0 b1 b2 b3 b4 b5 b6 b7 => attemptCommands [b0, b1, b2, b3, b4, b5, b6, b7]
  | .wait k => List.replicate k .nop

/-- The port samples that present the given commands, one an edge, in their canonical words with `rst = 0`. -/
def commandPorts (is : List Instr) : List Ports := is.map fun i => Ports.ofWord (encode i)

/-! ## The assembler's line (R68): a mnemonic, then at most one operand; `;` starts a comment -/

/-- The value of a hexadecimal digit, in either case (log entry 8). -/
def hexValue (c : Char) : Option Nat :=
  if '0' ≤ c ∧ c ≤ '9' then some (c.toNat - 48)
  else if 'A' ≤ c ∧ c ≤ 'F' then some (c.toNat - 55)
  else if 'a' ≤ c ∧ c ≤ 'f' then some (c.toNat - 87)
  else none

/-- The upper-case hexadecimal digit of a value below 16. -/
def hexDigit (n : Nat) : Char := if n < 10 then Char.ofNat (48 + n) else Char.ofNat (55 + n)

/-- Two hexadecimal digits, with an optional `0x`. -/
def readByte : List Char → Option Byte
  | ['0', 'x', a, b] => do return BitVec.ofNat 8 (16 * (← hexValue a) + (← hexValue b))
  | [a, b] => do return BitVec.ofNat 8 (16 * (← hexValue a) + (← hexValue b))
  | _ => none

/-- A byte as two upper-case hexadecimal digits. -/
def writeByte (d : Byte) : List Char := [hexDigit (d.toNat / 16), hexDigit (d.toNat % 16)]

/-- A decimal count (log entry 8). -/
def readCount (cs : List Char) : Option Nat :=
  if cs.isEmpty then none
  else cs.foldl (fun n c => do
    let n ← n
    if '0' ≤ c ∧ c ≤ '9' then some (10 * n + (c.toNat - 48)) else none) (some 0)

/-- The words of a line, split at spaces and tabs; a `;` ends the line (log entry 8). -/
def lineWords : List Char → List (List Char)
  | [] => []
  | c :: cs =>
    if c = ';' then []
    else if c = ' ' ∨ c = '\t' then [] :: lineWords cs
    else
      match lineWords cs with
      | [] => [[c]]
      | w :: ws => (c :: w) :: ws

/-- The commands one assembler line stands for: a command of R68 or a pseudo-instruction of R69. A blank line stands for
none. -/
def assembleLine (line : List Char) : Option (List Instr) :=
  match (lineWords line).filter fun w => !w.isEmpty with
  | [] => some []
  | [['N', 'O', 'P']] => some [.nop]
  | [['E', 'O', 'S']] => some [.eos]
  | [['S', 'T', 'A', 'R', 'T']] => some [.start]
  | [['B', 'Y', 'T', 'E'], a] => do return [.byte (← readByte a)]
  | [['B', 'Y', 'T', 'E', '_', 'E', 'O', 'S'], a] => do return [.byteEos (← readByte a)]
  | [['W', 'A', 'I', 'T'], a] => do return (Pseudo.wait (← readCount a)).expand
  | [['R', 'E', 'S', 'P', 'O', 'N', 'S', 'E'], a, b, c, d] => do
    return (Pseudo.response (← readByte a) (← readByte b) (← readByte c) (← readByte d)).expand
  | [['F', 'R', 'A', 'M', 'E'], a, b, c, d, e, f, g, h] => do
    return (Pseudo.frame (← readByte a) (← readByte b) (← readByte c) (← readByte d)
      (← readByte e) (← readByte f) (← readByte g) (← readByte h)).expand
  | [['D', 'E', 'C', 'O', 'D', 'E'], a, b, c, d, e, f, g, h] => do
    return (Pseudo.decode (← readByte a) (← readByte b) (← readByte c) (← readByte d)
      (← readByte e) (← readByte f) (← readByte g) (← readByte h)).expand
  | _ => none

/-- The line of a command (R68). -/
def writeLine : Instr → List Char
  | .nop => ['N', 'O', 'P']
  | .byte d => ['B', 'Y', 'T', 'E', ' '] ++ writeByte d
  | .eos => ['E', 'O', 'S']
  | .byteEos d => ['B', 'Y', 'T', 'E', '_', 'E', 'O', 'S', ' '] ++ writeByte d
  | .start => ['S', 'T', 'A', 'R', 'T']

end Sys2Proof.Machine
end

