-- ==== Sys2Proof/Safety.lean ====
section
/-! DEFINITION. What claims are stated in: the register values the spec's rules speak of, the invariant of
spec/10_state.md R30 over the registers, and the history of the bytes accepted in the running attempt. -/

namespace Sys2Proof.Machine

/-- The register values for which spec/93_implementation_defined.md section 1 asks for no fault. -/
abbrev Registers.Legal (r : Registers) : Prop :=
  r.phase ≠ .reserved ∧ (r.phase = .idle → r.bytesReceived = 0) ∧ (r.phase = .done → r.bytesReceived ≤ 8)

/-- A byte the attempt accepts at positions 0 to 6: the markers' own values there, any value at 3 to 6
(spec/41_frame_positions.md R100 to R106). -/
abbrev Registers.Accepts (r : Registers) (d : Byte) : Prop :=
  (r.bytesReceived = 0 ∧ d = 0x02) ∨ (r.bytesReceived = 1 ∧ d = 0x10) ∨ (r.bytesReceived = 2 ∧ d = 0x04) ∨
    (3 ≤ r.bytesReceived ∧ r.bytesReceived ≤ 6)

/-- The invariant over the registers alone: R30 but for what its item 5 says of past bytes, with R15 at count 0, R20 in
IDLE, and the counts that R152 to R154 record. -/
structure Registers.Inv (r : Registers) : Prop where
  phase_legal : r.phase ≠ .reserved
  idle_reset : r.phase = .idle → r = Registers.reset
  run_ok : r.phase = .run → r.result = .ok ∧ r.bytesReceived ≤ 7
  count_le : r.bytesReceived ≤ 8
  count_eight : r.bytesReceived = 8 → r.phase = .done
  acc_start : r.bytesReceived ≤ 1 → r.acc = 0
  acc_marker : r.bytesReceived = 2 → r.acc = 0x10
  acc_sum : 3 ≤ r.bytesReceived → r.acc = 0x14 + r.statusRaw + r.minutes + r.readingInt + r.readingFrac
  status_zero : r.bytesReceived ≤ 3 → r.statusRaw = 0
  minutes_zero : r.bytesReceived ≤ 4 → r.minutes = 0
  int_zero : r.bytesReceived ≤ 5 → r.readingInt = 0
  frac_zero : r.bytesReceived ≤ 6 → r.readingFrac = 0
  done_ok : r.phase = .done → r.result = .ok → r.bytesReceived = 8
  done_incomplete : r.phase = .done → r.result = .incomplete → r.bytesReceived ≤ 7
  done_malformed : r.phase = .done → r.result = .malformed → r.bytesReceived ≤ 2
  done_mismatch : r.phase = .done → r.result = .checksumMismatch → r.bytesReceived = 8

/-! ## The bytes accepted so far in the attempt -/

/-- The bytes accepted in the attempt after an edge, given those before it: none after reset or START; one more when the
byte on the ports is consumed and accepted, the byte at position 7 among them (spec/10_state.md R14). -/
def historyEdge (p : Ports) (r : Registers) (h : List Byte) : List Byte :=
  if p.rst ∨ p.startI then []
  else if consumes r p ∧ (r.Accepts p.inDataI ∨ r.bytesReceived = 7) then h ++ [p.inDataI]
  else h

/-- The bytes accepted after `k` steps, given those before them. -/
def historyRun : Nat → State → List Byte → List Byte
  | 0, _, h => h
  | k + 1, s, h =>
    match step s with
    | .next s' => historyRun k s' (historyEdge s.sample s.regs h)
    | _ => h

/-- What the accepted bytes say of the registers: the count, the accumulator, the captured fields, and that a Reading
stands only on a frame whose checksum is right (R14 to R20, spec/42_checksum_validator.md R124). -/
structure HistoryInv (r : Registers) (h : List Byte) : Prop where
  count : h.length = r.bytesReceived.toNat
  markers : h.take 3 = [0x02, 0x10, 0x04].take h.length
  sum : r.acc = byteSum ((h.drop 1).take 6)
  status : r.statusRaw = h.getD 3 0
  mins : r.minutes = h.getD 4 0
  int : r.readingInt = h.getD 5 0
  frac : r.readingFrac = h.getD 6 0
  phase_legal : r.phase ≠ .reserved
  idle_reset : r.phase = .idle → r = Registers.reset
  run_ok : r.phase = .run → r.result = .ok ∧ h.length ≤ 7
  full_done : h.length = 8 → r.phase = .done
  at_most_eight : h.length ≤ 8
  reading : readingValid r = true → h.length = 8 ∧ h.getD 7 0 = 0xFF - byteSum ((h.drop 1).take 6)

/-- The seven items of R30, `h` the bytes accepted in the attempt. -/
structure R30Items (r : Registers) (h : List Byte) : Prop where
  item1 : r.phase ≠ .reserved
  item2 : r.phase = .idle → r = Registers.reset
  item3 : r.phase = .run → r.result = .ok ∧ r.bytesReceived.toNat ≤ 7
  item4 : r.bytesReceived.toNat ≤ 8 ∧ (r.bytesReceived.toNat = 8 → r.phase = .done)
  item5markers : ∀ k, 1 ≤ k → k ≤ 3 → k ≤ r.bytesReceived.toNat → h.take k = [0x02, 0x10, 0x04].take k
  item5one : r.bytesReceived.toNat = 1 → r.acc = 0
  item5two : r.bytesReceived.toNat = 2 → r.acc = 0x10
  item5sum : 3 ≤ r.bytesReceived.toNat →
    r.acc = 0x14 + byteSum ((h.drop 3).take (min r.bytesReceived.toNat 7 - 3))
  item6 : (r.statusRaw ≠ 0 → 3 < r.bytesReceived.toNat) ∧ (r.minutes ≠ 0 → 4 < r.bytesReceived.toNat) ∧
    (r.readingInt ≠ 0 → 5 < r.bytesReceived.toNat) ∧ (r.readingFrac ≠ 0 → 6 < r.bytesReceived.toNat)
  item7 : readingValid r = true → r.bytesReceived.toNat = 8

/-- `k` edges all answer a next state: no fault, no refusal. -/
def SafeFor (k : Nat) (s : State) : Prop := ∃ t, Host.Core.run Sys2Proof.core k s = .next t

end Sys2Proof.Machine
end

