-- ==== Sys2Proof/Certificates/Slice0/Obligations.lean ====
section
/-! DEFINITION. The statements for the provers. Each says which rule of spec/ it formalises. -/

open Sys2Proof Sys2Proof.Machine

/-! ## Encoding -/

/-- Decoding the canonical word of a command gives the command back, from the word, from its two bytes (the byte layout
is the model's choice, log entry 7) with whatever follows them, and from the number the host's question gives. -/
def Obligations.DecodeOfEncodeIsTheCommand : Prop :=
  ∀ (i : Instr) (rest : List Byte),
    decodeWord (encode i) = i ∧ decodeBytes (encodeBytes i ++ rest) = .ok (i, rest) ∧
      decodeTableWord 16 (encode i).toNat = some i

/-- Encoding a decoded word gives the word with the bits its command ignores cleared (R68's canonical encoding). -/
def Obligations.EncodeOfDecodeClearsIgnoredBits : Prop :=
  ∀ w : CommandWord,
    encode (decodeWord w) = if w.getLsbD 10 then 0x400 else if w.getLsbD 8 then w else w &&& 0x700

/-- R61: every word is of exactly one row of the opcode table, that of the command it decodes to; no word traps; and a
command other than START has an effect in RUN only. -/
def Obligations.FivePatternsPartitionTheWords : Prop :=
  (∀ w : CommandWord, opcodeTable.filter (fun row => row.covers w) = [(decodeWord w).row]) ∧
    (∀ (w : CommandWord) (s : State), ∃ t, exec (decodeWord w) s = .next t) ∧
    (∀ (w : CommandWord) (s : State), w.getLsbD 10 = false → s.regs.phase ≠ .run → exec (decodeWord w) s = .next s)

/-- R56 to R60: each command's pattern, its mask and match, and the bits it ignores. -/
def Obligations.CommandPatternsDecode : Prop :=
  ∀ w : CommandWord,
    (w.extractLsb' 8 3 = 0b000 → decodeWord w = .nop) ∧
    (w.extractLsb' 8 3 = 0b001 → decodeWord w = .byte (w.extractLsb' 0 8)) ∧
    (w.extractLsb' 8 3 = 0b010 → decodeWord w = .eos) ∧
    (w.extractLsb' 8 3 = 0b011 → decodeWord w = .byteEos (w.extractLsb' 0 8)) ∧
    (w.getLsbD 10 = true → decodeWord w = .start) ∧
    (w &&& 0x700 = 0x000 ↔ decodeWord w = .nop) ∧
    (w &&& 0x700 = 0x100 ↔ ∃ d, decodeWord w = .byte d) ∧
    (w &&& 0x700 = 0x200 ↔ decodeWord w = .eos) ∧
    (w &&& 0x700 = 0x300 ↔ ∃ d, decodeWord w = .byteEos d) ∧
    (w &&& 0x400 = 0x400 ↔ decodeWord w = .start)

/-- Words written out bit by bit from R55 to R60 decode to the commands they stand for. -/
def Obligations.WrittenOutWordsDecode : Prop :=
  decodeWord 0b00000000000 = .nop ∧ decodeWord 0b00010100101 = .nop ∧
  decodeWord 0b00100000010 = .byte 0x02 ∧ decodeWord 0b00110101010 = .byte 0xAA ∧
  decodeWord 0b01000000000 = .eos ∧ decodeWord 0b01001010101 = .eos ∧
  decodeWord 0b01110101010 = .byteEos 0xAA ∧ decodeWord 0b01100000100 = .byteEos 0x04 ∧
  decodeWord 0b10000000000 = .start ∧ decodeWord 0b10100000010 = .start ∧ decodeWord 0b11111111111 = .start

/-- R55: `w = {start_i, in_eos_i, in_valid_i, in_data_i}`, bit by bit; `rst` is not part of the word; with `rst = 0` the
edge runs that word's command, and reset takes precedence over every word. -/
def Obligations.PortsPackIntoTheCommandWord : Prop :=
  (∀ p : Ports, p.word.getLsbD 10 = p.startI ∧ p.word.getLsbD 9 = p.inEosI ∧ p.word.getLsbD 8 = p.inValidI ∧
    p.word.extractLsb' 0 8 = p.inDataI ∧ ∀ b, { p with rst := b }.word = p.word) ∧
  (∀ w : CommandWord, (Ports.ofWord w).word = w ∧ (Ports.ofWord w).rst = false) ∧
  (∀ (p : Ports) (s : State), p.rst = false → s.regs.Legal → edge p s = exec (decodeWord p.word) s) ∧
  (∀ (p : Ports) (s : State), p.rst = true → edge p s = .next { s with regs := Registers.reset })

/-- The 48 bits of R22's tuple and the registers are one to one, in both directions; the phases have R13's codes. -/
def Obligations.RegistersAreFortyEightBits : Prop :=
  (Phase.idle.code = 0b00 ∧ Phase.run.code = 0b01 ∧ Phase.done.code = 0b10 ∧ Phase.reserved.code = 0b11) ∧
  (∀ r : Registers, Registers.ofBits r.toBits = r) ∧ (∀ b : BitVec 48, (Registers.ofBits b).toBits = b)

/-! ## The step -/

/-- With `rst = 0` and register values that are no fault, a step runs the command its next sample decodes to, on the
state with that sample taken off the schedule. -/
def Obligations.StepRunsTheDecodedCommand : Prop :=
  ∀ (s : State) (p : Ports) (ps : List Ports) (i : Instr),
    s.inputs = p :: ps → p.rst = false → s.regs.Legal → decodeWord p.word = i →
      step s = exec i { s with inputs := ps }

/-- With nothing scheduled a step acts on a free sample, and counts it (the model's own convention, log entry 2). It
holds for every value of the free sample. -/
def Obligations.StepTakesAFreeSampleWhenNothingIsScheduled : Prop :=
  ∀ s : State, s.inputs = [] →
    step s = edge { Ports.ofWord (Config.freeWord s.draws) with rst := Config.freeRst s.draws }
      { s with draws := s.draws + 1 }

/-- A word placed for the next fetch is the one the next step runs, and the schedule behind it is as before (the model's
own convention, log entry 3). -/
def Obligations.PlacedWordRunsNext : Prop :=
  ∀ (s : State) (w : CommandWord), s.regs.Legal →
    step (s.withFetchWord 16 w.toNat) = exec (decodeWord w) s

/-- R87, and R80's order of priority below reset: what one edge with `rst = 0` does, row by row of the table. -/
def Obligations.OneEdgeTable : Prop :=
  ∀ (s : State) (p : Ports) (ps : List Ports),
    s.inputs = p :: ps → p.rst = false → s.regs.Legal →
    (p.startI = true → step s = .next { s with inputs := ps, regs := ⟨.run, 0, 0, 0, 0, 0, 0, .ok⟩ }) ∧
    (p.startI = false → s.regs.phase ≠ .run → step s = .next { s with inputs := ps }) ∧
    (p.startI = false → s.regs.phase = .run → p.inEosI = false → p.inValidI = false →
      step s = .next { s with inputs := ps }) ∧
    (p.startI = false → s.regs.phase = .run → p.inEosI = false → p.inValidI = true →
      step s = exec (.byte p.inDataI) { s with inputs := ps }) ∧
    (p.startI = false → s.regs.phase = .run → p.inEosI = true → p.inValidI = false →
      step s = .next { s with inputs := ps, regs := { s.regs with phase := .done, result := .incomplete } }) ∧
    (p.startI = false → s.regs.phase = .run → p.inEosI = true → p.inValidI = true →
      ∃ u, exec (.byte p.inDataI) { s with inputs := ps } = .next u ∧
        step s = .next (if u.regs.phase = .run
          then { u with regs := { u.regs with phase := .done, result := .incomplete } } else u))

/-- spec/93_implementation_defined.md section 1: the register values no rule reaches are recorded as faults at any edge
without reset. -/
def Obligations.UnreachableRegisterValuesFault : Prop :=
  ∀ s : State, s.sample.rst = false →
    (s.regs.phase = .reserved → step s = .fault .reservedPhase) ∧
    (s.regs.phase = .idle → s.regs.bytesReceived ≠ 0 → step s = .fault .impossibleCount) ∧
    (s.regs.phase = .done → 9 ≤ s.regs.bytesReceived → step s = .fault .impossibleCount)

/-- No command is refused and none traps, from any state (R61, R161): it answers a next state, and what the host drives
is untouched. -/
def Obligations.EveryCommandCompletes : Prop :=
  ∀ (i : Instr) (s : State), ∃ r, exec i s = .next { s with regs := r }

/-! ## Reset -/

/-- R180: a reset edge sets every register, whatever the others held (power-up values among them), and all outputs fall
to 0; no byte is consumed. -/
def Obligations.ResetEdgeClearsEverything : Prop :=
  ∀ s : State, s.sample.rst = true →
    step s = .next { s.advance with regs := ⟨.idle, 0, 0, 0, 0, 0, 0, .ok⟩ } ∧
    (∀ b, outputs ⟨.idle, 0, 0, 0, 0, 0, 0, .ok⟩ b = ⟨false, false, false, 0, 0, false, 0, 0, 0, 0, 0, 0⟩) ∧
    consumes s.regs s.sample = false

/-- R181: `rst` over every other input, and held for several edges it keeps the block in the reset state. -/
def Obligations.ResetHeldKeepsTheResetState : Prop :=
  ∀ (s : State) (p : Ports) (ps rest : List Ports),
    s.inputs = p :: ps ++ rest → (∀ q ∈ p :: ps, q.rst = true) →
      Host.Core.run core (p :: ps).length s = .next { s with inputs := rest, regs := ⟨.idle, 0, 0, 0, 0, 0, 0, .ok⟩ }

/-- The registers of the state right after reset (R13 to R20, R180). -/
def Obligations.ResetStateRegisters : Prop :=
  State.reset.regs = ⟨.idle, 0, 0, 0, 0, 0, 0, .ok⟩

/-! ## Invariants -/

/-- The register invariant and the history invariant hold right after reset. -/
def Obligations.InvariantsHoldAtReset : Prop :=
  State.reset.regs.Inv ∧ HistoryInv State.reset.regs []

/-- Every step from a state that meets the register invariant gives a state that meets it, whatever the ports hold. -/
def Obligations.RegisterInvariantKeptByEveryStep : Prop :=
  ∀ s t : State, s.regs.Inv → step s = .next t → t.regs.Inv

/-- Every step keeps the history invariant: the registers say what bytes the attempt has accepted, and a Reading stands
only on a frame whose checksum byte is right. -/
def Obligations.HistoryInvariantKeptByEveryStep : Prop :=
  ∀ (s t : State) (h : List Byte), HistoryInv s.regs h → step s = .next t →
    HistoryInv t.regs (historyEdge s.sample s.regs h)

/-- R30: from reset registers, whatever the host drives, every state reached satisfies the seven items, and no step
stops. -/
def Obligations.ReachableStatesSatisfyR30 : Prop :=
  ∀ (k : Nat) (s : State), s.regs = Registers.reset →
    ∃ t, Host.Core.run core k s = .next t ∧ R30Items t.regs (historyRun k s [])

/-- From a state that meets the register invariant no step faults or is refused. -/
def Obligations.InvariantStatesNeverStop : Prop :=
  ∀ s : State, s.regs.Inv → ∃ t, step s = .next t

/-! ## Commands -/

/-- R82: NOP's pattern, that no register changes, and that any number of NOPs leave the block as it is. -/
def Obligations.NopChangesNothing : Prop :=
  (∀ w : CommandWord, w.extractLsb' 8 3 = 0b000 → decodeWord w = .nop) ∧
  (∀ s : State, exec .nop s = .next s) ∧
  (∀ (s : State) (ps rest : List Ports), s.regs.phase = .run → s.inputs = ps ++ rest →
    (∀ q ∈ ps, q.rst = false ∧ decodeWord q.word = .nop) →
      Host.Core.run core ps.length s = .next { s with inputs := rest })

/-- R81: START from every state, with the outputs after it, whatever else is on the ports; twice is as once. -/
def Obligations.StartBeginsAFreshAttempt : Prop :=
  (∀ w : CommandWord, w.getLsbD 10 = true → decodeWord w = .start) ∧
  (∀ s : State, exec .start s = .next { s with regs := ⟨.run, 0, 0, 0, 0, 0, 0, .ok⟩ }) ∧
  (∀ b, (outputs ⟨.run, 0, 0, 0, 0, 0, 0, .ok⟩ b).doneO = false ∧
    (outputs ⟨.run, 0, 0, 0, 0, 0, 0, .ok⟩ b).readingValidO = false ∧
    (outputs ⟨.run, 0, 0, 0, 0, 0, 0, .ok⟩ b).busyO = true) ∧
  (∀ (r : Registers) (p : Ports), p.startI = true → consumes r p = false ∧ (outputs r p.startI).inReadyO = false) ∧
  (∀ s t : State, exec .start s = .next t → exec .start t = .next t)

/-- R83: EOS ends a running attempt with INCOMPLETE at any count, changing nothing else, and has no effect outside
RUN. -/
def Obligations.EosEndsARunningAttempt : Prop :=
  (∀ w : CommandWord, w.extractLsb' 8 3 = 0b010 → decodeWord w = .eos) ∧
  ∀ s : State,
    (s.regs.phase = .run →
      exec .eos s = .next { s with regs := { s.regs with phase := .done, result := .incomplete } }) ∧
    (s.regs.phase ≠ .run → exec .eos s = .next s)

/-- R84: BYTE_EOS is BYTE and then, if the attempt still runs, the end of the source; outside RUN it has no effect. -/
def Obligations.ByteEosIsByteThenEos : Prop :=
  (∀ w : CommandWord, w.extractLsb' 8 3 = 0b011 → decodeWord w = .byteEos (w.extractLsb' 0 8)) ∧
  ∀ (d : Byte) (s : State),
    (s.regs.phase = .run → ∃ u, exec (.byte d) s = .next u ∧
      (u.regs.phase = .run →
        exec (.byteEos d) s = .next { u with regs := { u.regs with phase := .done, result := .incomplete } }) ∧
      (u.regs.phase ≠ .run → exec (.byteEos d) s = .next u)) ∧
    (s.regs.phase ≠ .run → exec (.byteEos d) s = .next s)

/-- R86, one edge: in IDLE and DONE only START and reset change a register, and no byte is consumed. -/
def Obligations.OnlyStartActsOutsideRun : Prop :=
  ∀ (s : State) (d : Byte), s.regs.phase = .idle ∨ s.regs.phase = .done →
    exec .nop s = .next s ∧ exec .eos s = .next s ∧ exec (.byte d) s = .next s ∧ exec (.byteEos d) s = .next s ∧
    (∀ p, consumes s.regs p = false) ∧ (∀ b, (outputs s.regs b).inReadyO = false)

/-- R159: after an outcome (and in IDLE), whatever the host offers without START or reset, the registers and so the
outcome on the outputs stay as they are. -/
def Obligations.OutcomeHeldUntilStartOrReset : Prop :=
  ∀ (s : State) (ps rest : List Ports), s.regs.Legal → s.regs.phase ≠ .run → s.inputs = ps ++ rest →
    (∀ q ∈ ps, q.rst = false ∧ q.startI = false) →
      Host.Core.run core ps.length s = .next { s with inputs := rest }

/-! ## Frame positions: the whole next state, for BYTE and for BYTE_EOS -/

/-- R100: position 0 takes the start marker and clears `acc`; any other byte is MALFORMED with `bytes_received` 0;
`acc` was already 0 there; and lock is an attempt running with its start marker taken. -/
def Obligations.PositionZeroTakesTheStartMarker : Prop :=
  (∀ r : Registers, r.locked = true ↔ r.phase = .run ∧ 1 ≤ r.bytesReceived) ∧
  ∀ (d : Byte) (s : State), s.regs.phase = .run → s.regs.bytesReceived = 0 →
    (d = 0x02 →
      exec (.byte d) s = .next { s with regs := { s.regs with bytesReceived := 1, acc := 0 } } ∧
      exec (.byteEos d) s = .next
        { s with regs := { s.regs with bytesReceived := 1, acc := 0, phase := .done, result := .incomplete } }) ∧
    (d ≠ 0x02 →
      exec (.byte d) s = .next { s with regs := { s.regs with phase := .done, result := .malformed } } ∧
      exec (.byteEos d) s = .next { s with regs := { s.regs with phase := .done, result := .malformed } }) ∧
    (s.regs.Inv → s.regs.acc = 0)

/-- R101: position 1 takes the data-result marker and adds it; any other byte is MALFORMED, not added. -/
def Obligations.PositionOneTakesTheTypeMarker : Prop :=
  ∀ (d : Byte) (s : State), s.regs.phase = .run → s.regs.bytesReceived = 1 →
    (d = 0x10 →
      exec (.byte d) s = .next { s with regs := { s.regs with bytesReceived := 2, acc := s.regs.acc + d } } ∧
      exec (.byteEos d) s = .next { s with regs :=
        { s.regs with bytesReceived := 2, acc := s.regs.acc + d, phase := .done, result := .incomplete } }) ∧
    (d ≠ 0x10 →
      exec (.byte d) s = .next { s with regs := { s.regs with phase := .done, result := .malformed } } ∧
      exec (.byteEos d) s = .next { s with regs := { s.regs with phase := .done, result := .malformed } })

/-- R102: position 2 takes the payload-size marker and adds it, `acc` becoming 0x14; any other byte is MALFORMED. -/
def Obligations.PositionTwoTakesTheSizeMarker : Prop :=
  ∀ (d : Byte) (s : State), s.regs.phase = .run → s.regs.bytesReceived = 2 →
    (d = 0x04 →
      exec (.byte d) s = .next { s with regs := { s.regs with bytesReceived := 3, acc := s.regs.acc + d } } ∧
      exec (.byteEos d) s = .next { s with regs :=
        { s.regs with bytesReceived := 3, acc := s.regs.acc + d, phase := .done, result := .incomplete } } ∧
      (s.regs.Inv → s.regs.acc + d = 0x14)) ∧
    (d ≠ 0x04 →
      exec (.byte d) s = .next { s with regs := { s.regs with phase := .done, result := .malformed } } ∧
      exec (.byteEos d) s = .next { s with regs := { s.regs with phase := .done, result := .malformed } })

/-- R103: position 3 captures any byte as `status_raw` and adds it. -/
def Obligations.PositionThreeCapturesStatus : Prop :=
  ∀ (d : Byte) (s : State), s.regs.phase = .run → s.regs.bytesReceived = 3 →
    exec (.byte d) s = .next { s with regs :=
      { s.regs with statusRaw := d, acc := s.regs.acc + d, bytesReceived := 4 } } ∧
    exec (.byteEos d) s = .next { s with regs :=
      { s.regs with statusRaw := d, acc := s.regs.acc + d, bytesReceived := 4, phase := .done, result := .incomplete } }

/-- R104: position 4 captures any byte as `minutes` and adds it. -/
def Obligations.PositionFourCapturesMinutes : Prop :=
  ∀ (d : Byte) (s : State), s.regs.phase = .run → s.regs.bytesReceived = 4 →
    exec (.byte d) s = .next { s with regs :=
      { s.regs with minutes := d, acc := s.regs.acc + d, bytesReceived := 5 } } ∧
    exec (.byteEos d) s = .next { s with regs :=
      { s.regs with minutes := d, acc := s.regs.acc + d, bytesReceived := 5, phase := .done, result := .incomplete } }

/-- R105: position 5 captures any byte as `reading_int` and adds it. -/
def Obligations.PositionFiveCapturesTheInteger : Prop :=
  ∀ (d : Byte) (s : State), s.regs.phase = .run → s.regs.bytesReceived = 5 →
    exec (.byte d) s = .next { s with regs :=
      { s.regs with readingInt := d, acc := s.regs.acc + d, bytesReceived := 6 } } ∧
    exec (.byteEos d) s = .next { s with regs :=
      { s.regs with readingInt := d, acc := s.regs.acc + d, bytesReceived := 6, phase := .done, result := .incomplete } }

/-- R106: position 6 captures any byte as `reading_frac`, above 99 as well, and adds it. -/
def Obligations.PositionSixCapturesTheFraction : Prop :=
  ∀ (d : Byte) (s : State), s.regs.phase = .run → s.regs.bytesReceived = 6 →
    exec (.byte d) s = .next { s with regs :=
      { s.regs with readingFrac := d, acc := s.regs.acc + d, bytesReceived := 7 } } ∧
    exec (.byteEos d) s = .next { s with regs :=
      { s.regs with readingFrac := d, acc := s.regs.acc + d, bytesReceived := 7, phase := .done, result := .incomplete } }

/-- R107: position 7 is terminal with either outcome, for BYTE and BYTE_EOS alike, and on success the Reading is on the
outputs. -/
def Obligations.PositionSevenChecksTheChecksum : Prop :=
  ∀ (d : Byte) (s : State), s.regs.phase = .run → s.regs.bytesReceived = 7 →
    (d = s.regs.acc ^^^ 0xFF →
      exec (.byte d) s = .next { s with regs := { s.regs with bytesReceived := 8, phase := .done, result := .ok } } ∧
      exec (.byteEos d) s = .next { s with regs := { s.regs with bytesReceived := 8, phase := .done, result := .ok } } ∧
      ∀ b, outputs { s.regs with bytesReceived := 8, phase := .done, result := .ok } b =
        ⟨false, false, true, 0b00, 8, true, s.regs.statusRaw, mapStatus s.regs.statusRaw, s.regs.minutes,
          s.regs.readingInt, s.regs.readingFrac,
          100 * s.regs.readingInt.setWidth 16 + s.regs.readingFrac.setWidth 16⟩) ∧
    (d ≠ s.regs.acc ^^^ 0xFF →
      exec (.byte d) s = .next
        { s with regs := { s.regs with bytesReceived := 8, phase := .done, result := .checksumMismatch } } ∧
      exec (.byteEos d) s = .next
        { s with regs := { s.regs with bytesReceived := 8, phase := .done, result := .checksumMismatch } }) ∧
    (d = 0x00 → (d = s.regs.acc ^^^ 0xFF ↔ s.regs.acc = 0xFF)) ∧
    (d = 0xFF → (d = s.regs.acc ^^^ 0xFF ↔ s.regs.acc = 0x00))

/-- R108: any other count in RUN, 8 to 15, is MALFORMED with the count unchanged; such a state breaks the invariant. -/
def Obligations.OtherCountsAreMalformed : Prop :=
  ∀ (d : Byte) (s : State), s.regs.phase = .run → 8 ≤ s.regs.bytesReceived →
    exec (.byte d) s = .next { s with regs := { s.regs with phase := .done, result := .malformed } } ∧
    exec (.byteEos d) s = .next { s with regs := { s.regs with phase := .done, result := .malformed } } ∧
    ¬ s.regs.Inv

/-! ## Who writes which register -/

/-- R14: what every command and reset leave in `bytes_received`, and that it never passes 8. -/
def Obligations.CountFollowsTheAcceptedBytes : Prop :=
  Registers.reset.bytesReceived = 0 ∧
  (∀ s t : State, exec .start s = .next t → t.regs.bytesReceived = 0) ∧
  (∀ s t : State, exec .nop s = .next t ∨ exec .eos s = .next t → t.regs.bytesReceived = s.regs.bytesReceived) ∧
  (∀ (d : Byte) (s t : State), exec (.byte d) s = .next t ∨ exec (.byteEos d) s = .next t →
    (s.regs.phase = .run → s.regs.Accepts d → t.regs.bytesReceived = s.regs.bytesReceived + 1) ∧
    (s.regs.phase = .run → s.regs.bytesReceived = 7 → t.regs.bytesReceived = 8) ∧
    (s.regs.phase ≠ .run ∨ (¬ s.regs.Accepts d ∧ s.regs.bytesReceived ≠ 7) →
      t.regs.bytesReceived = s.regs.bytesReceived)) ∧
  (∀ s t : State, s.regs.bytesReceived ≤ 8 → step s = .next t → t.regs.bytesReceived ≤ 8)

/-- R120, R121: `acc` is cleared by reset, START and an accepted start marker, has the byte added at positions 1 to 6
when accepted, and is written by nothing else. -/
def Obligations.AccumulatorClearedAddedOrHeld : Prop :=
  (∀ s t : State, s.sample.rst = true → step s = .next t → t.regs.acc = 0) ∧
  (∀ s t : State, exec .start s = .next t → t.regs.acc = 0) ∧
  (∀ s t : State, exec .nop s = .next t ∨ exec .eos s = .next t → t.regs.acc = s.regs.acc) ∧
  (∀ (d : Byte) (s t : State), exec (.byte d) s = .next t ∨ exec (.byteEos d) s = .next t →
    (s.regs.phase = .run → s.regs.bytesReceived = 0 → d = 0x02 → t.regs.acc = 0) ∧
    (s.regs.phase = .run → 1 ≤ s.regs.bytesReceived → s.regs.Accepts d → t.regs.acc = s.regs.acc + d) ∧
    (s.regs.phase ≠ .run ∨ ¬ s.regs.Accepts d → t.regs.acc = s.regs.acc))

/-- R16 to R19: each capture register takes the byte consumed at its position, is cleared by START and reset, and is
written by nothing else. -/
def Obligations.CapturesWrittenOnlyAtTheirPosition : Prop :=
  (Registers.reset.statusRaw = 0 ∧ Registers.reset.minutes = 0 ∧ Registers.reset.readingInt = 0 ∧
    Registers.reset.readingFrac = 0) ∧
  (∀ s t : State, exec .start s = .next t →
    t.regs.statusRaw = 0 ∧ t.regs.minutes = 0 ∧ t.regs.readingInt = 0 ∧ t.regs.readingFrac = 0) ∧
  (∀ s t : State, exec .nop s = .next t ∨ exec .eos s = .next t →
    t.regs.statusRaw = s.regs.statusRaw ∧ t.regs.minutes = s.regs.minutes ∧
    t.regs.readingInt = s.regs.readingInt ∧ t.regs.readingFrac = s.regs.readingFrac) ∧
  (∀ (d : Byte) (s t : State), exec (.byte d) s = .next t ∨ exec (.byteEos d) s = .next t →
    t.regs.statusRaw = (if s.regs.phase = .run ∧ s.regs.bytesReceived = 3 then d else s.regs.statusRaw) ∧
    t.regs.minutes = (if s.regs.phase = .run ∧ s.regs.bytesReceived = 4 then d else s.regs.minutes) ∧
    t.regs.readingInt = (if s.regs.phase = .run ∧ s.regs.bytesReceived = 5 then d else s.regs.readingInt) ∧
    t.regs.readingFrac = (if s.regs.phase = .run ∧ s.regs.bytesReceived = 6 then d else s.regs.readingFrac))

/-! ## Outcomes -/

/-- R151: terminal entry writes `phase` and `result` and nothing else, and the outputs after it. -/
def Obligations.TerminalEntryWritesPhaseAndResult : Prop :=
  ∀ (r : Registers) (code : Result) (b : Bool),
    r.raiseTerminal code = { r with phase := .done, result := code } ∧
    (outputs (r.raiseTerminal code) b).doneO = true ∧ (outputs (r.raiseTerminal code) b).busyO = false ∧
    (outputs (r.raiseTerminal code) b).inReadyO = false ∧ (outputs (r.raiseTerminal code) b).resultO = code.code ∧
    ((outputs (r.raiseTerminal code) b).readingValidO = true ↔ code = .ok) ∧
    (code = .ok → outputs (r.raiseTerminal code) b =
      ⟨false, false, true, 0b00, r.bytesReceived, true, r.statusRaw, mapStatus r.statusRaw, r.minutes, r.readingInt,
        r.readingFrac, valueCenti r.readingInt r.readingFrac⟩)

/-- R150: the outcome of an attempt that a command ends, by its cause; an ended attempt gets no second one, and one
abandoned by START or reset has none. -/
def Obligations.OutcomeByCause : Prop :=
  (∀ (i : Instr) (s t : State), s.regs.phase = .done → i ≠ .start → exec i s = .next t → t = s) ∧
  (∀ s t : State, exec .start s = .next t → t.regs.phase = .run) ∧
  (∀ s t : State, s.sample.rst = true → step s = .next t → t.regs.phase = .idle) ∧
  ∀ (i : Instr) (s t : State), s.regs.phase = .run → exec i s = .next t → t.regs.phase = .done →
    (t.regs.result = .ok ↔
      ∃ d, (i = .byte d ∨ i = .byteEos d) ∧ s.regs.bytesReceived = 7 ∧ d = s.regs.acc ^^^ 0xFF) ∧
    (t.regs.result = .incomplete ↔ i = .eos ∨ ∃ d, i = .byteEos d ∧ s.regs.Accepts d) ∧
    (t.regs.result = .malformed ↔
      ∃ d, (i = .byte d ∨ i = .byteEos d) ∧ ¬ s.regs.Accepts d ∧ s.regs.bytesReceived ≠ 7) ∧
    (t.regs.result = .checksumMismatch ↔
      ∃ d, (i = .byte d ∨ i = .byteEos d) ∧ s.regs.bytesReceived = 7 ∧ d ≠ s.regs.acc ^^^ 0xFF)

/-- What an outcome records in `bytes_received` (R152 to R154), in states that meet the invariant. -/
def Obligations.OutcomeRecordsTheCount : Prop :=
  ∀ (i : Instr) (s t : State), s.regs.Inv → s.regs.phase = .run → exec i s = .next t → t.regs.phase = .done →
    (t.regs.result = .incomplete → i = .eos → t.regs.bytesReceived = s.regs.bytesReceived) ∧
    (t.regs.result = .incomplete → i ≠ .eos → t.regs.bytesReceived = s.regs.bytesReceived + 1) ∧
    (t.regs.result = .incomplete → t.regs.bytesReceived ≤ 7) ∧
    (t.regs.result = .malformed → t.regs.bytesReceived = s.regs.bytesReceived ∧ t.regs.bytesReceived ≤ 2) ∧
    (t.regs.result = .ok ∨ t.regs.result = .checksumMismatch → t.regs.bytesReceived = 8)

/-- R158: DONE is left only by START, to a fresh attempt, or by reset, to IDLE. -/
def Obligations.DoneLeftOnlyByStartOrReset : Prop :=
  ∀ s : State, s.regs.Legal → s.regs.phase = .done →
    (s.sample.rst = true → step s = .next { s.advance with regs := ⟨.idle, 0, 0, 0, 0, 0, 0, .ok⟩ }) ∧
    (s.sample.rst = false → s.sample.startI = true →
      step s = .next { s.advance with regs := ⟨.run, 0, 0, 0, 0, 0, 0, .ok⟩ }) ∧
    (s.sample.rst = false → s.sample.startI = false → step s = .next s.advance)

/-- RUN is left only when reset comes, the source ends, or a byte ends the frame or fails (R187). -/
def Obligations.RunLeftOnlyByAnOutcomeOrReset : Prop :=
  ∀ s t : State, s.regs.phase = .run → step s = .next t →
    (t.regs.phase = .run ↔ s.sample.rst = false ∧ (s.sample.startI = true ∨
      (s.sample.inEosI = false ∧ (s.sample.inValidI = false ∨ s.regs.Accepts s.sample.inDataI)))) ∧
    (t.regs.phase ≠ .run → t.regs.phase = if s.sample.rst then .idle else .done)

/-! ## Outputs -/

/-- R24 to R28: the outputs for every register value, with the codes of R62 on `result_o`; when a byte is consumed; and
`done_o` stays 1 until the next START or reset. -/
def Obligations.OutputsAreFunctionsOfTheRegisters : Prop :=
  (∀ (r : Registers) (b : Bool),
    (∀ c, outputs r c = { outputs r b with inReadyO := (outputs r c).inReadyO }) ∧
    (outputs r b).inReadyO = (decide (r.phase = .run) && !b) ∧
    (∀ p, consumes r p = true ↔ p.inValidI = true ∧ (outputs r p.startI).inReadyO = true ∧ p.rst = false) ∧
    (outputs r b).busyO = decide (r.phase = .run) ∧ (outputs r b).doneO = decide (r.phase = .done) ∧
    (outputs r b).resultO = r.result.code ∧ (outputs r b).bytesReceivedO = r.bytesReceived ∧
    (outputs r b).readingValidO = (decide (r.phase = .done) && decide (r.result = .ok)) ∧
    (r.phase = .done → r.result = .ok →
      (outputs r b).statusRawO = r.statusRaw ∧ (outputs r b).statusClassO = mapStatus r.statusRaw ∧
      (outputs r b).minutesO = r.minutes ∧ (outputs r b).readingIntO = r.readingInt ∧
      (outputs r b).readingFracO = r.readingFrac ∧
      (outputs r b).valueCentiO = 100 * r.readingInt.setWidth 16 + r.readingFrac.setWidth 16) ∧
    (r.phase ≠ .done ∨ r.result ≠ .ok →
      (outputs r b).statusRawO = 0 ∧ (outputs r b).statusClassO = 0 ∧ (outputs r b).minutesO = 0 ∧
      (outputs r b).readingIntO = 0 ∧ (outputs r b).readingFracO = 0 ∧ (outputs r b).valueCentiO = 0)) ∧
  (Result.ok.code = 0b00 ∧ Result.incomplete.code = 0b01 ∧ Result.malformed.code = 0b10 ∧
    Result.checksumMismatch.code = 0b11) ∧
  (∀ (s : State) (b : Bool), s.regs.Legal → (outputs s.regs b).doneO = true → s.sample.rst = false →
    s.sample.startI = false → ∃ t, step s = .next t ∧ ∀ c, (outputs t.regs c).doneO = true)

/-- R29: while no Reading is presented the captured bytes are invisible at every output, and `acc` always is. -/
def Obligations.PartialCapturesAreHidden : Prop :=
  (∀ (r r' : Registers) (b : Bool), (outputs r b).readingValidO = false → r'.phase = r.phase → r'.result = r.result →
    r'.bytesReceived = r.bytesReceived → outputs r' b = outputs r b) ∧
  (∀ (r : Registers) (a : Byte) (b : Bool), outputs { r with acc := a } b = outputs r b)

/-- R66: the value in hundredths is exact, and within 0 to 25755; a fractional byte above 99 carries. -/
def Obligations.ValueCentiIsExact : Prop :=
  valueCenti 1 150 = 250 ∧
  ∀ i f : Byte, (valueCenti i f).toNat = 100 * i.toNat + f.toNat ∧ (valueCenti i f).toNat ≤ 25755

/-- R135 with R136 to R142: the class of every status byte; classes 6 and 7 are never produced. -/
def Obligations.StatusClassOfEveryByte : Prop :=
  mapStatus 0x00 = 0 ∧ mapStatus 0x01 = 1 ∧ mapStatus 0x02 = 2 ∧ mapStatus 0x10 = 3 ∧ mapStatus 0xE0 = 4 ∧
  (∀ b : Byte, b ≠ 0x00 → b ≠ 0x01 → b ≠ 0x02 → b ≠ 0x10 → b ≠ 0xE0 → mapStatus b = 5) ∧
  (∀ b : Byte, mapStatus b ≠ 6 ∧ mapStatus b ≠ 7)

/-- R42: a byte offered at an edge where it is not consumed has no effect: the step is the one with no byte offered and
any value on `in_data_i`. -/
def Obligations.UnconsumedByteHasNoEffect : Prop :=
  ∀ (s : State) (p : Ports) (ps : List Ports) (x : Byte), s.inputs = p :: ps → p.inValidI = true →
    consumes s.regs p = false →
      step s = step { s with inputs := { p with inValidI := false, inDataI := x } :: ps }

/-! ## Checksums -/

/-- R123: the XOR with 0xFF, the subtraction from 0xFF, the source's masked form and the complement are one. -/
def Obligations.ExpectedChecksumForms : Prop :=
  ∀ a : Byte, ckExpected a = a ^^^ 0xFF ∧ ckExpected a = 0xFF - a ∧ ckExpected a = (0xFF - (a &&& 0xFF)) &&& 0xFF ∧
    ckExpected a = ~~~a

/-- The checksum of a byte string of any length (R126), on the numbers its bytes stand for. -/
def Obligations.ChecksumOfAByteString : Prop :=
  ∀ xs : List Byte,
    (ck xs).toNat = 0xFF - (xs.map BitVec.toNat).sum % 256 ∧
    ck xs = (0xFF - BitVec.ofNat 8 ((xs.map BitVec.toNat).sum % 256)) &&& 0xFF

/-! ## Whole attempts -/

/-- START and eight bytes decide the attempt: which outcome, by the markers and the checksum, and what the outputs show
(R126; the testable properties of spec/95_test_vectors.md W6). -/
def Obligations.EightBytesDecideTheAttempt : Prop :=
  ∀ (s : State) (b0 b1 b2 b3 b4 b5 b6 b7 : Byte) (rest : List Ports), s.regs.Legal →
    s.inputs = commandPorts (Pseudo.decode b0 b1 b2 b3 b4 b5 b6 b7).expand ++ rest →
    ∃ t, Host.Core.run core 9 s = .next t ∧ t.inputs = rest ∧ t.draws = s.draws ∧ t.regs.phase = .done ∧
      (t.regs.result = .malformed ↔ ¬ (b0 = 0x02 ∧ b1 = 0x10 ∧ b2 = 0x04)) ∧
      (t.regs.result = .ok ↔ b0 = 0x02 ∧ b1 = 0x10 ∧ b2 = 0x04 ∧ b7 = ck [b1, b2, b3, b4, b5, b6]) ∧
      (t.regs.result = .checksumMismatch ↔
        b0 = 0x02 ∧ b1 = 0x10 ∧ b2 = 0x04 ∧ b7 ≠ ck [b1, b2, b3, b4, b5, b6]) ∧
      (t.regs.result = .ok → ∀ b, outputs t.regs b =
        ⟨false, false, true, 0b00, 8, true, b3, mapStatus b3, b4, b5, b6, valueCenti b5 b6⟩) ∧
      (t.regs.result ≠ .ok → ∀ b, (outputs t.regs b).readingValidO = false)

/-- R127: a change of one byte of a correct frame is caught (bytes 3 to 7 by the checksum, 0 to 2 by the markers), and
two changes of bytes 3 to 7 whose differences sum to 0 are not. -/
def Obligations.OneByteChangesAreCaught : Prop :=
  ∀ (s : State) (b3 b4 b5 b6 : Byte) (f : List Byte) (rest : List Ports), s.regs.Legal →
    f = [0x02, 0x10, 0x04, b3, b4, b5, b6, ck [0x10, 0x04, b3, b4, b5, b6]] →
    (∀ (k : Nat) (x : Byte), 3 ≤ k → k ≤ 7 → x ≠ f.getD k 0 →
      s.inputs = commandPorts (attemptCommands (f.set k x)) ++ rest →
      ∃ t, Host.Core.run core 9 s = .next t ∧ t.regs.phase = .done ∧ t.regs.result = .checksumMismatch) ∧
    (∀ (k : Nat) (x : Byte), k ≤ 2 → x ≠ f.getD k 0 →
      s.inputs = commandPorts (attemptCommands (f.set k x)) ++ rest →
      ∃ t, Host.Core.run core 9 s = .next t ∧ t.regs.phase = .done ∧ t.regs.result = .malformed) ∧
    (∀ (j k : Nat) (e : Byte), 3 ≤ j → j < k → k ≤ 7 →
      s.inputs = commandPorts (attemptCommands ((f.set j (f.getD j 0 + e)).set k (f.getD k 0 - e))) ++ rest →
      ∃ t, Host.Core.run core 9 s = .next t ∧ t.regs.phase = .done ∧ t.regs.result = .ok)

/-- An attempt whose source ends after fewer than eight accepted bytes is INCOMPLETE, and the count says how many came
(R83, R152). -/
def Obligations.ShortSourceIsIncomplete : Prop :=
  ∀ (s : State) (bs : List Byte) (rest : List Ports), s.regs.Legal → bs.length ≤ 7 →
    bs.take 3 = [0x02, 0x10, 0x04].take bs.length →
    s.inputs = commandPorts (attemptCommands bs ++ [.eos]) ++ rest →
    ∃ t, Host.Core.run core (bs.length + 2) s = .next t ∧ t.inputs = rest ∧ t.regs.phase = .done ∧
      t.regs.result = .incomplete ∧ t.regs.bytesReceived.toNat = bs.length ∧
      ∀ b, (outputs t.regs b).readingValidO = false

/-- Nothing of one attempt is visible to the next (R22): two blocks in any states, driven alike from a START on, have
the same registers at every later edge. -/
def Obligations.StartIsolatesAttempts : Prop :=
  ∀ (s u : State) (p : Ports) (ps : List Ports) (k : Nat), s.regs.Legal → u.regs.Legal →
    s.inputs = p :: ps → u.inputs = p :: ps → p.rst = false → p.startI = true → k ≤ ps.length →
    ∃ s' u', Host.Core.run core (k + 1) s = .next s' ∧ Host.Core.run core (k + 1) u = .next u' ∧ s'.regs = u'.regs

/-! ## Pseudo-instructions and the assembler's line -/

/-- R69: what each pseudo-instruction expands to. -/
def Obligations.PseudoInstructionsExpand : Prop :=
  (∀ b0 b1 b2 b3 b4 b5 b6 b7 : Byte,
    (Pseudo.frame b0 b1 b2 b3 b4 b5 b6 b7).expand =
      [.byte b0, .byte b1, .byte b2, .byte b3, .byte b4, .byte b5, .byte b6, .byte b7] ∧
    (Pseudo.decode b0 b1 b2 b3 b4 b5 b6 b7).expand = .start :: (Pseudo.frame b0 b1 b2 b3 b4 b5 b6 b7).expand) ∧
  (∀ st mi ri rf : Byte,
    (Pseudo.response st mi ri rf).expand =
      (Pseudo.frame 0x02 0x10 0x04 st mi ri rf (0xFF - (0x10 + 0x04 + st + mi + ri + rf))).expand) ∧
  (∀ k : Nat, (Pseudo.wait k).expand = List.replicate k .nop)

/-- The line written for a command (R68) reads back as that command, also with a comment after it. -/
def Obligations.AssemblerReadsWhatItWrites : Prop :=
  ∀ (i : Instr) (comment : List Char),
    assembleLine (writeLine i) = some [i] ∧ assembleLine (writeLine i ++ ' ' :: ';' :: comment) = some [i]
end

