-- ==== Sys2Proof/Laws/Encoding.lean ====
section
/-! SUPPORT. The fields of a command word: reading back what `packWord` put together. -/

namespace Sys2Proof

variable (s e v : Bool) (d : Byte)

/-- The bits of a packed word, one by one. -/
theorem getLsbD_packWord (i : Nat) : (packWord s e v d).getLsbD i =
    if i < 8 then d.getLsbD i else if i = 8 then v else if i = 9 then e else if i = 10 then s else false := by
  change (BitVec.ofBool s ++ (BitVec.ofBool e ++ (BitVec.ofBool v ++ d)) : BitVec (1 + (1 + (1 + 8)))).getLsbD i = _
  simp only [BitVec.getLsbD_append, BitVec.getLsbD_ofBool]
  rcases (by omega : i < 8 ∨ i = 8 ∨ i = 9 ∨ i = 10 ∨ 10 < i) with h | rfl | rfl | rfl | h
  · simp [h, show i < 1 + 8 by omega, show i < 1 + (1 + 8) by omega]
  · simp
  · simp
  · simp
  · simp [show ¬ i < 8 by omega, show ¬ i < 1 + (1 + 8) by omega,
      show i ≠ 8 by omega, show i ≠ 9 by omega, show i ≠ 10 by omega, show ¬ i - (1 + (1 + 8)) = 0 by omega]

@[simp] theorem fieldS_packWord : fieldS (packWord s e v d) = s := by rw [fieldS, getLsbD_packWord]; simp
@[simp] theorem fieldE_packWord : fieldE (packWord s e v d) = e := by rw [fieldE, getLsbD_packWord]; simp
@[simp] theorem fieldV_packWord : fieldV (packWord s e v d) = v := by rw [fieldV, getLsbD_packWord]; simp

@[simp] theorem fieldD_packWord : fieldD (packWord s e v d) = d := by
  refine BitVec.eq_of_getLsbD_eq fun i hi => ?_
  simp [fieldD, getLsbD_packWord, hi]

/-- A word is put together again from its four fields. -/
theorem packWord_fields (w : CommandWord) : packWord (fieldS w) (fieldE w) (fieldV w) (fieldD w) = w := by
  refine BitVec.eq_of_getLsbD_eq fun i hi => ?_
  rw [getLsbD_packWord]
  split
  · simp [fieldD, *]
  · split
    · simp [fieldV, *]
    · split
      · simp [fieldE, *]
      · have : i = 10 := by omega
        simp [fieldS, this]

@[simp] theorem commandOf_start : commandOf true e v d = .start := rfl
@[simp] theorem commandOf_nop : commandOf false false false d = .nop := rfl
@[simp] theorem commandOf_byte : commandOf false false true d = .byte d := rfl
@[simp] theorem commandOf_eos : commandOf false true false d = .eos := rfl
@[simp] theorem commandOf_byteEos : commandOf false true true d = .byteEos d := rfl

/-- Without START on the ports the command is not START. -/
theorem commandOf_ne_start : commandOf false e v d ≠ .start := by
  cases e <;> cases v <;> simp

/-- The decoder over the fields of a word that was packed. -/
theorem decodeWord_packWord : decodeWord (packWord s e v d) = commandOf s e v d := by simp [decodeWord]

/-- Each command's canonical word is its four fields packed. -/
theorem encode_eq_packWord (i : Instr) : encode i =
    match i with
    | .nop => packWord false false false 0
    | .byte d => packWord false false true d
    | .eos => packWord false true false 0
    | .byteEos d => packWord false true true d
    | .start => packWord true false false 0 := by
  cases i with
  | nop => decide
  | byte d => revert d; decide
  | eos => decide
  | byteEos d => revert d; decide
  | start => decide

end Sys2Proof

namespace Sys2Proof.Machine

@[simp] theorem Ports.word_ofWord (w : CommandWord) : (Ports.ofWord w).word = w := packWord_fields w
@[simp] theorem Ports.rst_ofWord (w : CommandWord) : (Ports.ofWord w).rst = false := rfl

/-- The command on the ports, by their levels. -/
theorem decodeWord_ports (p : Ports) :
    decodeWord p.word = commandOf p.startI p.inEosI p.inValidI p.inDataI :=
  decodeWord_packWord _ _ _ _

end Sys2Proof.Machine
end

