-- ==== Sys2Proof/Laws/State.lean ====
section
/-! SUPPORT. One lemma per field per update of the state and the registers. -/

namespace Sys2Proof.Machine

section State

variable (s : State) (r r' : Registers) (p : Ports)

@[simp] theorem State.withRegs_regs : (s.withRegs r).regs = r := rfl
@[simp] theorem State.withRegs_inputs : (s.withRegs r).inputs = s.inputs := rfl
@[simp] theorem State.withRegs_draws : (s.withRegs r).draws = s.draws := rfl
@[simp] theorem State.withRegs_self : s.withRegs s.regs = s := rfl
@[simp] theorem State.withRegs_withRegs : (s.withRegs r).withRegs r' = s.withRegs r' := rfl
@[simp] theorem State.schedule_regs : (s.schedule p).regs = s.regs := rfl
@[simp] theorem State.schedule_inputs : (s.schedule p).inputs = p :: s.inputs := rfl
@[simp] theorem State.schedule_draws : (s.schedule p).draws = s.draws := rfl
@[simp] theorem State.reset_regs : State.reset.regs = Registers.reset := rfl
@[simp] theorem State.reset_inputs : State.reset.inputs = [] := rfl
@[simp] theorem State.reset_draws : State.reset.draws = 0 := rfl

/-- Changing the registers is `withRegs`: the spelling every law uses. -/
theorem State.mk_regs_eq : { s with regs := r } = s.withRegs r := rfl

end State

section RaiseTerminal

variable (c : Result) (r : Registers)

@[simp] theorem Registers.raiseTerminal_phase : (r.raiseTerminal c).phase = .done := rfl
@[simp] theorem Registers.raiseTerminal_result : (r.raiseTerminal c).result = c := rfl
@[simp] theorem Registers.raiseTerminal_bytesReceived : (r.raiseTerminal c).bytesReceived = r.bytesReceived := rfl
@[simp] theorem Registers.raiseTerminal_acc : (r.raiseTerminal c).acc = r.acc := rfl
@[simp] theorem Registers.raiseTerminal_statusRaw : (r.raiseTerminal c).statusRaw = r.statusRaw := rfl
@[simp] theorem Registers.raiseTerminal_minutes : (r.raiseTerminal c).minutes = r.minutes := rfl
@[simp] theorem Registers.raiseTerminal_readingInt : (r.raiseTerminal c).readingInt = r.readingInt := rfl
@[simp] theorem Registers.raiseTerminal_readingFrac : (r.raiseTerminal c).readingFrac = r.readingFrac := rfl

end RaiseTerminal

section AccStep

variable (o : AccOp) (r : Registers)

@[simp] theorem Registers.accStep_acc : (r.accStep o).acc = accNext r.acc o := rfl
@[simp] theorem Registers.accStep_phase : (r.accStep o).phase = r.phase := rfl
@[simp] theorem Registers.accStep_result : (r.accStep o).result = r.result := rfl
@[simp] theorem Registers.accStep_bytesReceived : (r.accStep o).bytesReceived = r.bytesReceived := rfl
@[simp] theorem Registers.accStep_statusRaw : (r.accStep o).statusRaw = r.statusRaw := rfl
@[simp] theorem Registers.accStep_minutes : (r.accStep o).minutes = r.minutes := rfl
@[simp] theorem Registers.accStep_readingInt : (r.accStep o).readingInt = r.readingInt := rfl
@[simp] theorem Registers.accStep_readingFrac : (r.accStep o).readingFrac = r.readingFrac := rfl

end AccStep

@[simp] theorem accNext_hold (a : Byte) : accNext a .hold = a := rfl
@[simp] theorem accNext_clear (a : Byte) : accNext a .clear = 0 := rfl
@[simp] theorem accNext_add (a d : Byte) : accNext a (.add d) = a + d := rfl

section Constants

@[simp] theorem Registers.fresh_phase : Registers.fresh.phase = .run := rfl
@[simp] theorem Registers.fresh_result : Registers.fresh.result = .ok := rfl
@[simp] theorem Registers.fresh_bytesReceived : Registers.fresh.bytesReceived = 0 := rfl
@[simp] theorem Registers.fresh_acc : Registers.fresh.acc = 0 := rfl
@[simp] theorem Registers.fresh_statusRaw : Registers.fresh.statusRaw = 0 := rfl
@[simp] theorem Registers.fresh_minutes : Registers.fresh.minutes = 0 := rfl
@[simp] theorem Registers.fresh_readingInt : Registers.fresh.readingInt = 0 := rfl
@[simp] theorem Registers.fresh_readingFrac : Registers.fresh.readingFrac = 0 := rfl
@[simp] theorem Registers.reset_phase : Registers.reset.phase = .idle := rfl
@[simp] theorem Registers.reset_result : Registers.reset.result = .ok := rfl
@[simp] theorem Registers.reset_bytesReceived : Registers.reset.bytesReceived = 0 := rfl
@[simp] theorem Registers.reset_acc : Registers.reset.acc = 0 := rfl
@[simp] theorem Registers.reset_statusRaw : Registers.reset.statusRaw = 0 := rfl
@[simp] theorem Registers.reset_minutes : Registers.reset.minutes = 0 := rfl
@[simp] theorem Registers.reset_readingInt : Registers.reset.readingInt = 0 := rfl
@[simp] theorem Registers.reset_readingFrac : Registers.reset.readingFrac = 0 := rfl

end Constants

end Sys2Proof.Machine
end

