-- ==== Sys2Proof/Laws/Outputs.lean ====
section
/-! SUPPORT. The status levels by phase, and the byte sum's recursion. -/

namespace Sys2Proof.Machine

section Levels

variable {r : Registers}

theorem readingValid_iff : readingValid r = true ↔ r.phase = .done ∧ r.result = .ok := by simp [readingValid]

theorem inReady_iff {b : Bool} : inReady r b = true ↔ r.phase = .run ∧ b = false := by simp [inReady]

theorem consumes_iff {p : Ports} :
    consumes r p = true ↔ p.rst = false ∧ p.inValidI = true ∧ r.phase = .run ∧ p.startI = false := by
  simp [consumes, inReady, and_assoc]

/-- A failure's terminal entry presents no Reading, whatever the captured bytes. -/
theorem readingValid_raiseTerminal {c : Result} : readingValid (r.raiseTerminal c) = true ↔ c = .ok := by
  simp [readingValid]

end Levels

@[simp] theorem byteSum_nil : byteSum [] = 0 := rfl

theorem byteSum_append (xs : List Byte) (d : Byte) : byteSum (xs ++ [d]) = accNext (byteSum xs) (.add d) := by
  simp [byteSum]

end Sys2Proof.Machine
end

