-- ==== Sys2Proof/Laws/PerInstr.lean ====
section
/-! SUPPORT. Statements made per command, about the command as syntax. -/

namespace Sys2Proof.Laws

namespace TableRow

/-- The command's canonical word is one of its own row of the opcode table, the row bears the command's mnemonic, and the
command is well-formed. -/
def Statement (i : Instr) : Prop :=
  i.row.covers (encode i) = true ∧ i.row ∈ opcodeTable ∧ i.row.mnemonic = i.mnemonic ∧ i.wellFormed = true

theorem nop : Statement .nop := by unfold Statement; decide

theorem byte (d : Byte) : Statement (.byte d) := by
  refine ⟨?_, by simp [Instr.row, opcodeTable], rfl, rfl⟩
  revert d; decide

theorem eos : Statement .eos := by unfold Statement; decide

theorem byteEos (d : Byte) : Statement (.byteEos d) := by
  refine ⟨?_, by simp [Instr.row, opcodeTable], rfl, rfl⟩
  revert d; decide

theorem start : Statement .start := by unfold Statement; decide

end TableRow

end Sys2Proof.Laws
end

