-- ==== Sys2Proof/Laws/Positions.lean ====
section
/-! SUPPORT. What a consumed byte does, position by position, and all it can do. -/

namespace Sys2Proof.Machine

section Consume

variable {d : Byte} {r : Registers}

theorem consume_at_zero (h : r.bytesReceived = 0) : consume d r = position0 d r := by simp [consume, h]
theorem consume_at_one (h : r.bytesReceived = 1) : consume d r = position1 d r := by simp [consume, h]
theorem consume_at_two (h : r.bytesReceived = 2) : consume d r = position2 d r := by simp [consume, h]
theorem consume_at_three (h : r.bytesReceived = 3) : consume d r = position3 d r := by simp [consume, h]
theorem consume_at_four (h : r.bytesReceived = 4) : consume d r = position4 d r := by simp [consume, h]
theorem consume_at_five (h : r.bytesReceived = 5) : consume d r = position5 d r := by simp [consume, h]
theorem consume_at_six (h : r.bytesReceived = 6) : consume d r = position6 d r := by simp [consume, h]
theorem consume_at_seven (h : r.bytesReceived = 7) : consume d r = position7 d r := by simp [consume, h]

theorem consume_at_other (h : 8 ≤ r.bytesReceived.toNat) : consume d r = positionOther r := by
  unfold consume
  split <;> first | omega | rfl

/-- The count is one of the nine that `consume` tells apart. -/
theorem count_cases (n : Count) :
    n = 0 ∨ n = 1 ∨ n = 2 ∨ n = 3 ∨ n = 4 ∨ n = 5 ∨ n = 6 ∨ n = 7 ∨ 8 ≤ n.toNat := by
  revert n; decide

end Consume

/-- Everything a consumed byte can do: spec/41_frame_positions.md R110, row by row. -/
theorem consume_cases (d : Byte) (r : Registers) :
    (r.bytesReceived = 0 ∧ d = 0x02 ∧ consume d r = { r with bytesReceived := 1, acc := 0 }) ∨
    (r.bytesReceived = 0 ∧ d ≠ 0x02 ∧ consume d r = r.raiseTerminal .malformed) ∨
    (r.bytesReceived = 1 ∧ d = 0x10 ∧ consume d r = { r with bytesReceived := 2, acc := r.acc + d }) ∨
    (r.bytesReceived = 1 ∧ d ≠ 0x10 ∧ consume d r = r.raiseTerminal .malformed) ∨
    (r.bytesReceived = 2 ∧ d = 0x04 ∧ consume d r = { r with bytesReceived := 3, acc := r.acc + d }) ∨
    (r.bytesReceived = 2 ∧ d ≠ 0x04 ∧ consume d r = r.raiseTerminal .malformed) ∨
    (r.bytesReceived = 3 ∧ consume d r = { r with statusRaw := d, bytesReceived := 4, acc := r.acc + d }) ∨
    (r.bytesReceived = 4 ∧ consume d r = { r with minutes := d, bytesReceived := 5, acc := r.acc + d }) ∨
    (r.bytesReceived = 5 ∧ consume d r = { r with readingInt := d, bytesReceived := 6, acc := r.acc + d }) ∨
    (r.bytesReceived = 6 ∧ consume d r = { r with readingFrac := d, bytesReceived := 7, acc := r.acc + d }) ∨
    (r.bytesReceived = 7 ∧ d = r.acc ^^^ 0xFF ∧
      consume d r = { r with bytesReceived := 8, phase := .done, result := .ok }) ∨
    (r.bytesReceived = 7 ∧ d ≠ r.acc ^^^ 0xFF ∧
      consume d r = { r with bytesReceived := 8, phase := .done, result := .checksumMismatch }) ∨
    (8 ≤ r.bytesReceived.toNat ∧ consume d r = r.raiseTerminal .malformed) := by
  rcases count_cases r.bytesReceived with h | h | h | h | h | h | h | h | h
  · by_cases hd : d = 0x02
    · exact .inl ⟨h, hd, by rw [consume_at_zero h, position0, if_pos (by simp [sofMatch, hd])]; rfl⟩
    · exact .inr (.inl ⟨h, hd, by rw [consume_at_zero h, position0, if_neg (by simpa [sofMatch] using hd)]⟩)
  · by_cases hd : d = 0x10
    · exact .inr (.inr (.inl ⟨h, hd, by rw [consume_at_one h, position1, if_pos hd]; rfl⟩))
    · exact .inr (.inr (.inr (.inl ⟨h, hd, by rw [consume_at_one h, position1, if_neg hd]⟩)))
  · by_cases hd : d = 0x04
    · exact .inr (.inr (.inr (.inr (.inl ⟨h, hd, by rw [consume_at_two h, position2, if_pos hd]; rfl⟩))))
    · exact .inr (.inr (.inr (.inr (.inr (.inl ⟨h, hd, by rw [consume_at_two h, position2, if_neg hd]⟩)))))
  · simp [consume_at_three h, h, position3, Registers.accStep]
  · simp [consume_at_four h, h, position4, Registers.accStep]
  · simp [consume_at_five h, h, position5, Registers.accStep]
  · simp [consume_at_six h, h, position6, Registers.accStep]
  · have e : ∀ c, (if ckMatch r.acc d then Result.ok else .checksumMismatch) = c →
        consume d r = { r with bytesReceived := 8, phase := .done, result := c } := by
      rintro _ rfl; exact consume_at_seven h
    by_cases hd : d = r.acc ^^^ 0xFF
    · exact .inr (.inr (.inr (.inr (.inr (.inr (.inr (.inr (.inr (.inr (.inl
        ⟨h, hd, e _ (if_pos (by simp [ckMatch, ckExpected, hd]))⟩))))))))))
    · exact .inr (.inr (.inr (.inr (.inr (.inr (.inr (.inr (.inr (.inr (.inr (.inl
        ⟨h, hd, e _ (if_neg (by simpa [ckMatch, ckExpected] using hd))⟩)))))))))))
  · simp [consume_at_other h, h, positionOther]

/-- The synchroniser's `sync_fail` (spec/00_scope.md R9) is exactly where a byte at position 0 ends the attempt. -/
theorem consume_of_syncFail {d : Byte} {r : Registers} (h : syncFail r d = true) :
    consume d r = r.raiseTerminal .malformed := by
  obtain ⟨h0, hd⟩ : r.bytesReceived = 0 ∧ sofMatch d = false := by simpa [syncFail] using h
  rw [consume_at_zero h0, position0, if_neg (by simp [hd])]

section Offer

variable {r : Registers} (d : Byte)

@[simp] theorem offer_of_run (h : r.phase = .run) : offer d r = consume d r := by simp [offer, h]
@[simp] theorem offer_of_not_run (h : r.phase ≠ .run) : offer d r = r := by simp [offer, h]

@[simp] theorem Registers.endOfSource_of_run (h : r.phase = .run) :
    r.endOfSource = r.raiseTerminal .incomplete := by simp [Registers.endOfSource, h]

@[simp] theorem Registers.endOfSource_of_not_run (h : r.phase ≠ .run) : r.endOfSource = r := by
  simp [Registers.endOfSource, h]

end Offer

end Sys2Proof.Machine
end

