-- ==== Sys2Proof/Laws/Step.lean ====
section
/-! SUPPORT. What one command does to the registers, and everything one step can do. -/

namespace Sys2Proof.Machine

/-! ## Commands as functions of the registers -/

/-- What a command does to the registers: the form every law about `exec` is stated in. -/
def commandRegs : Instr → Registers → Registers
  | .nop, r => r
  | .byte d, r => offer d r
  | .eos, r => r.endOfSource
  | .byteEos d, r => (offer d r).endOfSource
  | .start, _ => Registers.fresh

theorem exec_eq (i : Instr) (s : State) : exec i s = .next (s.withRegs (commandRegs i s.regs)) := by
  cases i <;> rfl

theorem exec_next_iff {i : Instr} {s t : State} : exec i s = .next t ↔ t = s.withRegs (commandRegs i s.regs) := by
  simp [exec_eq, eq_comm]

@[simp] theorem commandRegs_nop (r : Registers) : commandRegs .nop r = r := rfl
@[simp] theorem commandRegs_byte (d : Byte) (r : Registers) : commandRegs (.byte d) r = offer d r := rfl
@[simp] theorem commandRegs_eos (r : Registers) : commandRegs .eos r = r.endOfSource := rfl
@[simp] theorem commandRegs_byteEos (d : Byte) (r : Registers) :
    commandRegs (.byteEos d) r = (offer d r).endOfSource := rfl
@[simp] theorem commandRegs_start (r : Registers) : commandRegs .start r = Registers.fresh := rfl

/-- Outside RUN a command other than START leaves the registers as they are. -/
theorem commandRegs_of_not_run {i : Instr} {r : Registers} (h : r.phase ≠ .run) (hi : i ≠ .start) :
    commandRegs i r = r := by
  cases i <;> simp_all

/-! ## The values that are no fault -/

theorem Registers.fault?_eq_none_iff {r : Registers} : r.fault? = none ↔ r.Legal := by
  obtain ⟨phase, n, _, _, _, _, _, _⟩ := r
  cases phase <;> simp [Registers.fault?, Registers.Legal, BitVec.le_def]

theorem Registers.legal_of_run {r : Registers} (h : r.phase = .run) : r.Legal := by simp [Registers.Legal, h]

theorem Registers.Inv.legal {r : Registers} (h : r.Inv) : r.Legal :=
  ⟨h.phase_legal, fun hp => by rw [h.idle_reset hp]; rfl, fun _ => h.count_le⟩

/-! ## Sampling -/

section Sample

variable {s : State} {p : Ports} {ps : List Ports}

theorem State.sample_of_cons (h : s.inputs = p :: ps) : s.sample = p := by simp [State.sample, h]
theorem State.advance_of_cons (h : s.inputs = p :: ps) : s.advance = { s with inputs := ps } := by
  simp [State.advance, h]
theorem State.sample_of_nil (h : s.inputs = []) : s.sample = freePorts s.draws := by simp [State.sample, h]
theorem State.advance_of_nil (h : s.inputs = []) : s.advance = { s with draws := s.draws + 1 } := by
  simp [State.advance, h]

@[simp] theorem State.advance_regs (s : State) : s.advance.regs = s.regs := by
  unfold State.advance; split <;> rfl

end Sample

/-! ## One step -/

theorem step_of_rst {s : State} (h : s.sample.rst = true) : step s = .next (s.advance.withRegs Registers.reset) := by
  simp [step, edge, h]

theorem step_of_legal {s : State} (h : s.sample.rst = false) (hl : s.regs.Legal) :
    step s = exec (decodeWord s.sample.word) s.advance := by
  simp [step, edge, h, Registers.fault?_eq_none_iff.2 hl]

/-- Everything a step that answers a next state can do. -/
theorem step_cases {s t : State} (h : step s = .next t) :
    (s.sample.rst = true ∧ t = s.advance.withRegs Registers.reset) ∨
    (s.sample.rst = false ∧ s.regs.Legal ∧
      t = s.advance.withRegs (commandRegs (decodeWord s.sample.word) s.regs)) := by
  cases hr : s.sample.rst with
  | true => exact .inl ⟨rfl, by simpa [step_of_rst hr, eq_comm] using h⟩
  | false =>
    by_cases hl : s.regs.Legal
    · exact .inr ⟨rfl, hl, by simpa [step_of_legal hr hl, exec_next_iff] using h⟩
    · obtain ⟨f, hf⟩ := Option.ne_none_iff_exists'.1 (mt Registers.fault?_eq_none_iff.1 hl)
      simp [step, edge, hr, hf] at h

/-- The registers after a step, whatever the ports hold. -/
theorem step_regs {s t : State} (h : step s = .next t) :
    t.regs = if s.sample.rst then Registers.reset else commandRegs (decodeWord s.sample.word) s.regs := by
  obtain ⟨hr, rfl⟩ | ⟨hr, -, rfl⟩ := step_cases h <;> simp [hr]

/-! ## Several steps -/

theorem run_zero (s : State) : Host.Core.run Sys2Proof.core 0 s = .next s := rfl

/-- A machine's first step, taken out of a run. -/
theorem core_run_succ (M : Host.Core) {s t : M.State} (k : Nat) (h : M.step s = .next t) :
    M.run (k + 1) s = M.run k t := by
  rw [Host.Core.run, h]

theorem run_succ {s t : State} (k : Nat) (h : step s = .next t) :
    Host.Core.run Sys2Proof.core (k + 1) s = Host.Core.run Sys2Proof.core k t :=
  core_run_succ Sys2Proof.core k h

/-- One scheduled sample without reset, from register values that are no fault. -/
theorem step_scheduled {s : State} {p : Ports} {ps : List Ports} (h : s.inputs = p :: ps) (hr : p.rst = false)
    (hl : s.regs.Legal) :
    step s = .next { s with inputs := ps, regs := commandRegs (decodeWord p.word) s.regs } := by
  rw [step_of_legal (by rw [State.sample_of_cons h, hr]) hl, State.sample_of_cons h, State.advance_of_cons h, exec_eq]
  rfl

/-- One command in its canonical word, from register values that are no fault. -/
theorem step_command {s : State} {w : CommandWord} {ps : List Ports} (h : s.inputs = Ports.ofWord w :: ps)
    (hl : s.regs.Legal) : step s = .next { s with inputs := ps, regs := commandRegs (decodeWord w) s.regs } := by
  simpa using step_scheduled h rfl hl

/-- Scheduled samples whose commands leave the registers as they are only use up the schedule. -/
theorem run_of_registers_kept {s : State} {ps rest : List Ports} (hl : s.regs.Legal) (h : s.inputs = ps ++ rest)
    (hk : ∀ p ∈ ps, p.rst = false ∧ commandRegs (decodeWord p.word) s.regs = s.regs) :
    Host.Core.run Sys2Proof.core ps.length s = .next { s with inputs := rest } := by
  induction ps generalizing s with
  | nil => obtain rfl : s.inputs = rest := by simpa using h
           rfl
  | cons p ps ih =>
    have hp := hk p (by simp)
    have hstep := step_scheduled (by simpa using h) hp.1 hl
    rw [hp.2] at hstep
    rw [List.length_cons, run_succ _ hstep]
    exact ih (s := { s with inputs := ps ++ rest }) hl rfl fun q hq => hk q (by simp [hq])

end Sys2Proof.Machine
end

