-- ==== Sys2Proof/Tests/Slice0.lean ====
section
/-! SUPPORT. Tests with expected results from the spec (spec/95_test_vectors.md unless said), and for every statement
with hypotheses a witness that meets them. -/

open Sys2Proof Sys2Proof.Machine

namespace Sys2Proof.Tests

/-! ## Small states -/

/-- An attempt in progress. -/
def running (n : Count) (a st mi ri rf : Byte) : Registers := ⟨.run, n, a, st, mi, ri, rf, .ok⟩

/-- An attempt that ended. -/
def ended (n : Count) (a st mi ri rf : Byte) (c : Result) : Registers := ⟨.done, n, a, st, mi, ri, rf, c⟩

/-- A state with given registers and samples. -/
def withPorts (r : Registers) (ps : List Ports) : State := ⟨r, ps, 0⟩

/-- The sample of a command word. -/
def port (w : CommandWord) : Ports := Ports.ofWord w

/-- The sample of a command word with `rst = 1`. -/
def resetPort (w : CommandWord) : Ports := { Ports.ofWord w with rst := true }

/-! ## Well-formedness: every command is well-formed (R61); the other two checks refuse an ill-formed term -/

theorem test_number_too_wide_refused : commandWordFits 2048 = false ∧ commandWordFits 2047 = true := by decide
theorem test_high_byte_refused : highByteFits 0x08 = false ∧ highByteFits 0x07 = true := by decide
theorem test_wide_word_not_decoded : decodeTableWord 16 0x800 = none := by decide
theorem test_high_bits_rejected_by_name : decodeBytes [0x00, 0x08] = .error .highBitsSet := by rfl
theorem test_short_bytes_rejected_by_name : decodeBytes [0x00] = .error .truncated := by rfl

/-! ## Decoding, words written out from R55 to R60 -/

theorem test_decode_nop : decodeWord 0b00011111111 = .nop := by decide
theorem test_decode_byte : decodeWord 0b00100101010 = .byte 0x2A := by decide
theorem test_decode_eos : decodeWord 0b01000000001 = .eos := by decide
theorem test_decode_byteEos : decodeWord 0b01100101010 = .byteEos 0x2A := by decide
theorem test_decode_start : decodeWord 0b10100000010 = .start := by decide
theorem test_encode_as_R68 : encode .nop = 0x000 ∧ encode .start = 0x400 ∧ encode (.byte 0x2A) = 0x12A ∧
    encode .eos = 0x200 ∧ encode (.byteEos 0x2A) = 0x32A := by decide
theorem test_table_word_starts_after_reset :
    decodeTableWord 16 0x400 = some .start ∧
      step (State.reset.withFetchWord 16 0x400) = exec .start State.reset := ⟨by decide, rfl⟩

/-! ## Commands -/

/-- V6. -/
theorem test_nop : step (withPorts (running 3 0x14 0 0 0 0) [port 0x000]) =
    .next (withPorts (running 3 0x14 0 0 0 0) []) := rfl
/-- V28: the sum wraps. -/
theorem test_byte_sum_wraps : step (withPorts (running 3 0x14 0 0 0 0) [port 0x1F0]) =
    .next (withPorts (running 4 0x04 0xF0 0 0 0) []) := rfl
/-- V24: a repeated start marker. -/
theorem test_byte_repeated_marker : step (withPorts (running 1 0 0 0 0 0) [port 0x102]) =
    .next (withPorts (ended 1 0 0 0 0 0 .malformed) []) := rfl
/-- V7. -/
theorem test_eos_empty_source : step (withPorts (running 0 0 0 0 0 0) [port 0x200]) =
    .next (withPorts (ended 0 0 0 0 0 0 .incomplete) []) := rfl
/-- V12: no second outcome. -/
theorem test_eos_after_outcome : step (withPorts (ended 0 0 0 0 0 0 .malformed) [port 0x200]) =
    .next (withPorts (ended 0 0 0 0 0 0 .malformed) []) := rfl
/-- V8. -/
theorem test_byteEos_accepted : step (withPorts (running 2 0x10 0 0 0 0) [port 0x304]) =
    .next (withPorts (ended 3 0x14 0 0 0 0 .incomplete) []) := rfl
/-- V11: position 7 decides, not the end of the source. -/
theorem test_byteEos_checksum : step (withPorts (running 7 0x55 0x02 0x2A 0 0x15) [port 0x3C8]) =
    .next (withPorts (ended 8 0x55 0x02 0x2A 0 0x15 .checksumMismatch) []) := rfl
/-- V4: the byte offered with START is not consumed. -/
theorem test_start_with_byte : step (withPorts Registers.reset [port 0x502]) =
    .next (withPorts (running 0 0 0 0 0 0) []) := rfl
/-- V14, V71: reset wins over START and a byte. -/
theorem test_reset_wins : step (withPorts (running 4 0x16 0x02 0 0 0) [resetPort 0x502]) =
    .next (withPorts Registers.reset []) := rfl

/-! ## Functions -/

/-- W3, W4 and section 2.3. -/
theorem test_ck : ck [0xA1, 0x01, 0x0A] = 0x53 ∧ ck [0xA0, 0x00] = 0x5F ∧ ck [0x01, 0x00] = 0xFE ∧ ck [] = 0xFF ∧
    ck [0x10, 0x04, 0x02, 0x2A, 0x00, 0x15] = 0xAA := by decide
/-- Section 2.4. -/
theorem test_mapStatus : mapStatus 0xE0 = 4 ∧ mapStatus 0xE1 = 5 ∧ mapStatus 0x11 = 5 ∧ mapStatus 0x10 = 3 := by decide
/-- V44 and P5. -/
theorem test_valueCenti : valueCenti 0xFF 0xFF = 25755 ∧ valueCenti 1 150 = 250 := by decide
/-- W2. -/
theorem test_outputs_reading : outputs (ended 8 0x55 0x02 0x2A 0 0x15 .ok) false =
    ⟨false, false, true, 0b00, 8, true, 0x02, 2, 42, 0, 21, 21⟩ := by decide
/-- W1. -/
theorem test_outputs_mismatch : outputs (ended 8 0x55 0x02 0x2A 0 0x15 .checksumMismatch) false =
    ⟨false, false, true, 0b11, 8, false, 0, 0, 0, 0, 0, 0⟩ := by decide
/-- R62, read off `result_o`. -/
theorem test_result_codes :
    (outputs (ended 5 0 0 0 0 0 .incomplete) false).resultO = 0b01 ∧
    (outputs (ended 0 0 0 0 0 0 .malformed) false).resultO = 0b10 ∧
    (outputs (ended 8 0 0 0 0 0 .checksumMismatch) false).resultO = 0b11 ∧
    (outputs (ended 8 0 0 0 0 0 .ok) false).resultO = 0b00 := by decide
/-- R25, in the middle of an attempt. -/
theorem test_busy_mid_attempt : (outputs (running 5 0x40 0x02 0x2A 0 0) false).busyO = true ∧
    (outputs (running 5 0x40 0x02 0x2A 0 0) false).doneO = false := by decide
/-- R13. -/
theorem test_phase_codes : Phase.idle.code = 0b00 ∧ Phase.run.code = 0b01 ∧ Phase.done.code = 0b10 := by decide
/-- R68 and R69. -/
theorem test_assembler_line : assembleLine ['B', 'Y', 'T', 'E', ' ', '0', 'x', '2', 'a'] = some [.byte 0x2A] := by decide

/-! ## Witnesses: encodings and the step -/

theorem witness_FivePatternsPartitionTheWords :
    (0x302 : CommandWord).getLsbD 10 = false ∧ State.reset.regs.phase ≠ .run := by decide

theorem witness_CommandPatternsDecode :
    (0x0FF : CommandWord).extractLsb' 8 3 = 0b000 ∧ (0x1FF : CommandWord).extractLsb' 8 3 = 0b001 ∧
    (0x2FF : CommandWord).extractLsb' 8 3 = 0b010 ∧ (0x3FF : CommandWord).extractLsb' 8 3 = 0b011 ∧
    (0x7FF : CommandWord).getLsbD 10 = true := by decide

theorem witness_PortsPackIntoTheCommandWord :
    (port 0x400).rst = false ∧ Registers.reset.Legal ∧ (resetPort 0x400).rst = true := by decide

theorem witness_StepRunsTheDecodedCommand :
    (withPorts Registers.reset [port 0x502]).inputs = port 0x502 :: [] ∧ (port 0x502).rst = false ∧
    (withPorts Registers.reset [port 0x502]).regs.Legal ∧ decodeWord (port 0x502).word = .start := by decide

theorem witness_StepTakesAFreeSampleWhenNothingIsScheduled : State.reset.inputs = [] := rfl

theorem witness_PlacedWordRunsNext : State.reset.regs.Legal := by decide

/-- The six rows of the table: each clause's own levels and phase, beside the common hypotheses. -/
theorem witness_OneEdgeTable :
    (∀ w ∈ [0x700, 0x300, 0x000, 0x1FF, 0x200, 0x3FF], (port w).rst = false) ∧
    Registers.reset.Legal ∧ (ended 8 0 0 0 0 0 .ok).Legal ∧ (running 7 0 0 0 0 0).Legal ∧
    (port 0x700).startI = true ∧
    ((port 0x300).startI = false ∧ Registers.reset.phase ≠ .run ∧ (ended 8 0 0 0 0 0 .ok).phase ≠ .run) ∧
    (running 7 0 0 0 0 0).phase = .run ∧
    ((port 0x000).startI = false ∧ (port 0x000).inEosI = false ∧ (port 0x000).inValidI = false) ∧
    ((port 0x1FF).startI = false ∧ (port 0x1FF).inEosI = false ∧ (port 0x1FF).inValidI = true) ∧
    ((port 0x200).startI = false ∧ (port 0x200).inEosI = true ∧ (port 0x200).inValidI = false) ∧
    ((port 0x3FF).startI = false ∧ (port 0x3FF).inEosI = true ∧ (port 0x3FF).inValidI = true) := by decide

/-- Clauses at the ends of their ranges: counts 1 and 15 in IDLE, 9 and 15 in DONE. -/
theorem witness_UnreachableRegisterValuesFault :
    (withPorts ⟨.reserved, 0, 0, 0, 0, 0, 0, .ok⟩ [port 0x400]).sample.rst = false ∧
    (⟨.reserved, 0, 0, 0, 0, 0, 0, .ok⟩ : Registers).phase = .reserved ∧
    (∀ n ∈ [(1 : Count), 15], n ≠ 0 ∧ (⟨.idle, n, 0, 0, 0, 0, 0, .ok⟩ : Registers).phase = .idle) ∧
    (∀ n ∈ [(9 : Count), 15], 9 ≤ n ∧ (ended n 0 0 0 0 0 .ok).phase = .done) := by decide

theorem witness_ResetEdgeClearsEverything :
    (withPorts ⟨.reserved, 15, 1, 2, 3, 4, 5, .malformed⟩ [resetPort 0x7FF]).sample.rst = true := by decide

theorem witness_ResetHeldKeepsTheResetState :
    (withPorts (running 4 0x16 0x02 0 0 0) [resetPort 0x400, resetPort 0x102]).inputs =
      resetPort 0x400 :: [resetPort 0x102] ++ [] ∧
    ∀ q ∈ resetPort 0x400 :: [resetPort 0x102], q.rst = true := by decide

/-! ## Witnesses: invariants -/

theorem running_three_inv : (running 3 0x14 0 0 0 0).Inv := by constructor <;> decide

theorem running_three_history : HistoryInv (running 3 0x14 0 0 0 0) [0x02, 0x10, 0x04] := by constructor <;> decide

theorem witness_RegisterInvariantKeptByEveryStep :
    (withPorts (running 3 0x14 0 0 0 0) [port 0x1F0]).regs.Inv ∧
    step (withPorts (running 3 0x14 0 0 0 0) [port 0x1F0]) = .next (withPorts (running 4 0x04 0xF0 0 0 0) []) :=
  ⟨running_three_inv, rfl⟩

theorem witness_HistoryInvariantKeptByEveryStep :
    HistoryInv (withPorts (running 3 0x14 0 0 0 0) [port 0x1F0]).regs [0x02, 0x10, 0x04] ∧
    step (withPorts (running 3 0x14 0 0 0 0) [port 0x1F0]) = .next (withPorts (running 4 0x04 0xF0 0 0 0) []) :=
  ⟨running_three_history, rfl⟩

theorem witness_ReachableStatesSatisfyR30 : State.reset.regs = Registers.reset := rfl

theorem witness_InvariantStatesNeverStop : (withPorts (running 3 0x14 0 0 0 0) [port 0x000]).regs.Inv :=
  running_three_inv

/-! ## Witnesses: commands -/

theorem witness_NopChangesNothing :
    (0x0A5 : CommandWord).extractLsb' 8 3 = 0b000 ∧ (running 3 0x14 0 0 0 0).phase = .run ∧
    (withPorts (running 3 0x14 0 0 0 0) [port 0x000, port 0x0FF]).inputs = [port 0x000, port 0x0FF] ++ [] ∧
    ∀ q ∈ [port 0x000, port 0x0FF], q.rst = false ∧ decodeWord q.word = .nop := by decide

theorem witness_StartBeginsAFreshAttempt :
    (0x502 : CommandWord).getLsbD 10 = true ∧ (port 0x502).startI = true ∧
    exec .start State.reset = .next (withPorts (running 0 0 0 0 0 0) []) := ⟨by decide, by decide, rfl⟩

theorem witness_EosEndsARunningAttempt :
    (0x2FF : CommandWord).extractLsb' 8 3 = 0b010 ∧ (running 0 0 0 0 0 0).phase = .run ∧
    (running 7 0 0 0 0 0).phase = .run ∧ State.reset.regs.phase ≠ .run := by decide

theorem witness_ByteEosIsByteThenEos :
    (0x3AA : CommandWord).extractLsb' 8 3 = 0b011 ∧ (running 2 0x10 0 0 0 0).phase = .run ∧
    (offer 0x04 (running 2 0x10 0 0 0 0)).phase = .run ∧ (offer 0x05 (running 2 0x10 0 0 0 0)).phase ≠ .run ∧
    (ended 8 0 0 0 0 0 .ok).phase ≠ .run := by decide

theorem witness_OnlyStartActsOutsideRun :
    (Registers.reset.phase = .idle ∨ Registers.reset.phase = .done) ∧
    ((ended 8 0 0 0 0 0 .ok).phase = .idle ∨ (ended 8 0 0 0 0 0 .ok).phase = .done) := by decide

/-- V12. -/
theorem witness_OutcomeHeldUntilStartOrReset :
    (withPorts (ended 0 0 0 0 0 0 .malformed) [port 0x200, port 0x102]).regs.Legal ∧
    (ended 0 0 0 0 0 0 .malformed).phase ≠ .run ∧
    (withPorts (ended 0 0 0 0 0 0 .malformed) [port 0x200, port 0x102]).inputs = [port 0x200, port 0x102] ++ [] ∧
    ∀ q ∈ [port 0x200, port 0x102], q.rst = false ∧ q.startI = false := by decide

/-! ## Witnesses: positions -/

theorem running_zero_inv : (running 0 0 0 0 0 0).Inv := by constructor <;> decide
theorem running_two_inv : (running 2 0x10 0 0 0 0).Inv := by constructor <;> decide

theorem witness_PositionZeroTakesTheStartMarker :
    (running 0 0 0 0 0 0).phase = .run ∧ (running 0 0 0 0 0 0).bytesReceived = 0 ∧ (0x02 : Byte) = 0x02 ∧
    (0xFF : Byte) ≠ 0x02 ∧ (running 0 0 0 0 0 0).Inv := ⟨rfl, rfl, rfl, by decide, running_zero_inv⟩

theorem witness_PositionOneTakesTheTypeMarker :
    (running 1 0 0 0 0 0).phase = .run ∧ (running 1 0 0 0 0 0).bytesReceived = 1 ∧ (0x10 : Byte) = 0x10 ∧
    (0x02 : Byte) ≠ 0x10 := by decide

theorem witness_PositionTwoTakesTheSizeMarker :
    (running 2 0x10 0 0 0 0).phase = .run ∧ (running 2 0x10 0 0 0 0).bytesReceived = 2 ∧ (0x04 : Byte) = 0x04 ∧
    (0x05 : Byte) ≠ 0x04 ∧ (running 2 0x10 0 0 0 0).Inv := ⟨rfl, rfl, rfl, by decide, running_two_inv⟩

theorem witness_PositionThreeCapturesStatus :
    (running 3 0x14 0 0 0 0).phase = .run ∧ (running 3 0x14 0 0 0 0).bytesReceived = 3 := by decide

theorem witness_PositionFourCapturesMinutes :
    (running 4 0x16 0x02 0 0 0).phase = .run ∧ (running 4 0x16 0x02 0 0 0).bytesReceived = 4 := by decide

theorem witness_PositionFiveCapturesTheInteger :
    (running 5 0x40 0x02 0x2A 0 0).phase = .run ∧ (running 5 0x40 0x02 0x2A 0 0).bytesReceived = 5 := by decide

theorem witness_PositionSixCapturesTheFraction :
    (running 6 0x40 0x02 0x2A 0 0).phase = .run ∧ (running 6 0x40 0x02 0x2A 0 0).bytesReceived = 6 := by decide

theorem witness_PositionSevenChecksTheChecksum :
    (running 7 0x55 0x02 0x2A 0 0x15).phase = .run ∧ (running 7 0x55 0x02 0x2A 0 0x15).bytesReceived = 7 ∧
    (0xAA : Byte) = (running 7 0x55 0x02 0x2A 0 0x15).acc ^^^ 0xFF ∧
    (0xC8 : Byte) ≠ (running 7 0x55 0x02 0x2A 0 0x15).acc ^^^ 0xFF ∧
    (0x00 : Byte) = (running 7 0xFF 0 0 0 0xEB).acc ^^^ 0xFF ∧ (0xFF : Byte) = (running 7 0x00 0 0 0 0xEC).acc ^^^ 0xFF := by
  decide

theorem witness_OtherCountsAreMalformed :
    ∀ n ∈ [(8 : Count), 15], (running n 0 0 0 0 0).phase = .run ∧ 8 ≤ (running n 0 0 0 0 0).bytesReceived := by decide

/-! ## Witnesses: who writes which register -/

/-- Accepted at 0 and 6, consumed at 7, rejected at 2, ignored in DONE; the bound at 8. -/
theorem witness_CountFollowsTheAcceptedBytes :
    exec (.byte 0x02) (withPorts (running 0 0 0 0 0 0) []) = .next (withPorts (running 1 0 0 0 0 0) []) ∧
    (running 0 0 0 0 0 0).Accepts 0x02 ∧ (running 6 0x40 0x02 0x2A 0 0).Accepts 0x15 ∧
    (running 7 0x55 0x02 0x2A 0 0x15).bytesReceived = 7 ∧ ¬ (running 2 0x10 0 0 0 0).Accepts 0x05 ∧
    (ended 8 0 0 0 0 0 .ok).phase ≠ .run ∧ (ended 8 0 0 0 0 0 .ok).bytesReceived ≤ 8 ∧
    step (withPorts (ended 8 0 0 0 0 0 .ok) [port 0x200]) = .next (withPorts (ended 8 0 0 0 0 0 .ok) []) :=
  ⟨rfl, by decide, by decide, by decide, by decide, by decide, by decide, rfl⟩

theorem witness_AccumulatorClearedAddedOrHeld :
    (withPorts (running 3 0x14 0 0 0 0) [resetPort 0]).sample.rst = true ∧
    step (withPorts (running 3 0x14 0 0 0 0) [resetPort 0]) = .next (withPorts Registers.reset []) ∧
    exec (.byte 0x15) (withPorts (running 6 0x40 0x02 0x2A 0 0) []) =
      .next (withPorts (running 7 0x55 0x02 0x2A 0 0x15) []) ∧
    (running 1 0 0 0 0 0).Accepts 0x10 ∧ 1 ≤ (running 1 0 0 0 0 0).bytesReceived ∧
    (running 6 0x40 0x02 0x2A 0 0).Accepts 0x15 ∧ ¬ (running 1 0 0 0 0 0).Accepts 0x02 :=
  ⟨rfl, rfl, rfl, by decide, by decide, by decide, by decide⟩

theorem witness_CapturesWrittenOnlyAtTheirPosition :
    exec .start State.reset = .next (withPorts (running 0 0 0 0 0 0) []) ∧
    exec .nop State.reset = .next State.reset ∧
    exec (.byte 0x15) (withPorts (running 6 0x40 0x02 0x2A 0 0) []) =
      .next (withPorts (running 7 0x55 0x02 0x2A 0 0x15) []) := ⟨rfl, rfl, rfl⟩

/-! ## Witnesses: outcomes and outputs -/

theorem witness_TerminalEntryWritesPhaseAndResult : Result.ok = .ok := rfl

theorem witness_OutcomeByCause :
    (running 7 0x55 0x02 0x2A 0 0x15).phase = .run ∧
    exec (.byteEos 0xAA) (withPorts (running 7 0x55 0x02 0x2A 0 0x15) []) =
      .next (withPorts (ended 8 0x55 0x02 0x2A 0 0x15 .ok) []) ∧
    exec .eos (withPorts (ended 8 0x55 0x02 0x2A 0 0x15 .ok) []) =
      .next (withPorts (ended 8 0x55 0x02 0x2A 0 0x15 .ok) []) ∧ Instr.eos ≠ .start ∧
    exec .start State.reset = .next (withPorts (running 0 0 0 0 0 0) []) ∧
    (withPorts Registers.reset [resetPort 0]).sample.rst = true ∧
    step (withPorts Registers.reset [resetPort 0]) = .next State.reset :=
  ⟨rfl, rfl, rfl, by decide, rfl, rfl, rfl⟩

theorem witness_OutcomeRecordsTheCount :
    (running 2 0x10 0 0 0 0).Inv ∧ (running 2 0x10 0 0 0 0).phase = .run ∧
    exec (.byteEos 0x04) (withPorts (running 2 0x10 0 0 0 0) []) =
      .next (withPorts (ended 3 0x14 0 0 0 0 .incomplete) []) ∧
    exec .eos (withPorts (running 2 0x10 0 0 0 0) []) = .next (withPorts (ended 2 0x10 0 0 0 0 .incomplete) []) ∧
    exec (.byte 0x05) (withPorts (running 2 0x10 0 0 0 0) []) =
      .next (withPorts (ended 2 0x10 0 0 0 0 .malformed) []) := ⟨running_two_inv, rfl, rfl, rfl, rfl⟩

theorem running_seven_inv : (running 7 0x55 0x02 0x2A 0 0x15).Inv := by constructor <;> decide

/-- The last clause of the same statement: the two outcomes of position 7. -/
theorem witness_OutcomeRecordsTheCount_position7 :
    (running 7 0x55 0x02 0x2A 0 0x15).Inv ∧
    exec (.byte 0xAA) (withPorts (running 7 0x55 0x02 0x2A 0 0x15) []) =
      .next (withPorts (ended 8 0x55 0x02 0x2A 0 0x15 .ok) []) ∧
    exec (.byte 0xC8) (withPorts (running 7 0x55 0x02 0x2A 0 0x15) []) =
      .next (withPorts (ended 8 0x55 0x02 0x2A 0 0x15 .checksumMismatch) []) := ⟨running_seven_inv, rfl, rfl⟩

theorem witness_DoneLeftOnlyByStartOrReset :
    (ended 8 0 0 0 0 0 .ok).Legal ∧ (ended 8 0 0 0 0 0 .ok).phase = .done ∧
    (withPorts (ended 8 0 0 0 0 0 .ok) [resetPort 0x400]).sample.rst = true ∧
    ((withPorts (ended 8 0 0 0 0 0 .ok) [port 0x400]).sample.rst = false ∧
      (withPorts (ended 8 0 0 0 0 0 .ok) [port 0x400]).sample.startI = true) ∧
    ((withPorts (ended 8 0 0 0 0 0 .ok) [port 0x302]).sample.rst = false ∧
      (withPorts (ended 8 0 0 0 0 0 .ok) [port 0x302]).sample.startI = false) := by decide

theorem witness_RunLeftOnlyByAnOutcomeOrReset :
    (running 2 0x10 0 0 0 0).phase = .run ∧
    step (withPorts (running 2 0x10 0 0 0 0) [port 0x105]) = .next (withPorts (ended 2 0x10 0 0 0 0 .malformed) []) ∧
    (ended 2 0x10 0 0 0 0 .malformed).phase ≠ .run := ⟨rfl, rfl, by decide⟩

theorem witness_OutputsAreFunctionsOfTheRegisters :
    (ended 8 0x55 0x02 0x2A 0 0x15 .ok).phase = .done ∧ (ended 8 0x55 0x02 0x2A 0 0x15 .ok).result = .ok ∧
    (Registers.reset.phase ≠ .done ∨ Registers.reset.result ≠ .ok) ∧
    (withPorts (ended 8 0x55 0x02 0x2A 0 0x15 .ok) [port 0x302]).regs.Legal ∧
    (outputs (withPorts (ended 8 0x55 0x02 0x2A 0 0x15 .ok) [port 0x302]).regs false).doneO = true ∧
    (withPorts (ended 8 0x55 0x02 0x2A 0 0x15 .ok) [port 0x302]).sample.rst = false ∧
    (withPorts (ended 8 0x55 0x02 0x2A 0 0x15 .ok) [port 0x302]).sample.startI = false := by decide

theorem witness_PartialCapturesAreHidden :
    (outputs (ended 5 0x25 0x01 0x10 0 0 .incomplete) false).readingValidO = false ∧
    (ended 5 0 0 0 0 0 .incomplete).phase = (ended 5 0x25 0x01 0x10 0 0 .incomplete).phase ∧
    (ended 5 0 0 0 0 0 .incomplete).result = (ended 5 0x25 0x01 0x10 0 0 .incomplete).result ∧
    (ended 5 0 0 0 0 0 .incomplete).bytesReceived = (ended 5 0x25 0x01 0x10 0 0 .incomplete).bytesReceived := by decide

theorem witness_StatusClassOfEveryByte :
    (0x03 : Byte) ≠ 0x00 ∧ (0x03 : Byte) ≠ 0x01 ∧ (0x03 : Byte) ≠ 0x02 ∧ (0x03 : Byte) ≠ 0x10 ∧ (0x03 : Byte) ≠ 0xE0 := by
  decide

theorem witness_UnconsumedByteHasNoEffect :
    (withPorts Registers.reset [port 0x102]).inputs = port 0x102 :: [] ∧ (port 0x102).inValidI = true ∧
    consumes Registers.reset (port 0x102) = false ∧ consumes (running 0 0 0 0 0 0) (port 0x502) = false := by decide

/-! ## Witnesses: whole attempts -/

theorem witness_EightBytesDecideTheAttempt :
    Registers.reset.Legal ∧
    (withPorts Registers.reset (commandPorts (Pseudo.decode 0x02 0x10 0x04 0x02 0x2A 0x00 0x15 0xAA).expand)).inputs =
      commandPorts (Pseudo.decode 0x02 0x10 0x04 0x02 0x2A 0x00 0x15 0xAA).expand ++ [] := ⟨by decide, rfl⟩

/-- The frame of W2. -/
def goodFrame : List Byte := [0x02, 0x10, 0x04, 0x02, 0x2A, 0x00, 0x15, 0xAA]

/-- A reset block with an attempt over the given bytes scheduled. -/
def attempting (bs : List Byte) : State := withPorts Registers.reset (commandPorts (attemptCommands bs))

/-- Each clause at both ends of its range: bytes 3 and 7, bytes 0 and 2, and the compensating pairs 3 and 4 (V46),
6 and 7. -/
theorem witness_OneByteChangesAreCaught :
    Registers.reset.Legal ∧
    goodFrame = [0x02, 0x10, 0x04, 0x02, 0x2A, 0x00, 0x15, ck [0x10, 0x04, 0x02, 0x2A, 0x00, 0x15]] ∧
    (∀ kx ∈ [((3 : Nat), (0x03 : Byte)), (7, 0xC8), (0, 0xFF), (2, 0x05)], kx.2 ≠ goodFrame.getD kx.1 0 ∧
      (attempting (goodFrame.set kx.1 kx.2)).inputs =
        commandPorts (attemptCommands (goodFrame.set kx.1 kx.2)) ++ []) ∧
    (goodFrame.set 3 (goodFrame.getD 3 0 + 1)).set 4 (goodFrame.getD 4 0 - 1) =
      [0x02, 0x10, 0x04, 0x03, 0x29, 0x00, 0x15, 0xAA] ∧
    (∀ jk ∈ [((3 : Nat), (4 : Nat)), (6, 7)], 3 ≤ jk.1 ∧ jk.1 < jk.2 ∧ jk.2 ≤ 7 ∧
      (attempting ((goodFrame.set jk.1 (goodFrame.getD jk.1 0 + 1)).set jk.2 (goodFrame.getD jk.2 0 - 1))).inputs =
        commandPorts (attemptCommands
          ((goodFrame.set jk.1 (goodFrame.getD jk.1 0 + 1)).set jk.2 (goodFrame.getD jk.2 0 - 1))) ++ []) := by decide

/-- The shortest and the longest such source: none and seven bytes. -/
theorem witness_ShortSourceIsIncomplete :
    Registers.reset.Legal ∧ ([] : List Byte).length ≤ 7 ∧
    ([0x02, 0x10, 0x04, 0x02, 0x2A, 0x00, 0x15] : List Byte).length ≤ 7 ∧
    ([] : List Byte).take 3 = [0x02, 0x10, 0x04].take ([] : List Byte).length ∧
    ([0x02, 0x10, 0x04, 0x02, 0x2A, 0x00, 0x15] : List Byte).take 3 =
      [0x02, 0x10, 0x04].take ([0x02, 0x10, 0x04, 0x02, 0x2A, 0x00, 0x15] : List Byte).length ∧
    (withPorts Registers.reset (commandPorts (attemptCommands [] ++ [.eos]))).inputs =
      commandPorts (attemptCommands [] ++ [.eos]) ++ [] := by decide

theorem witness_StartIsolatesAttempts :
    (ended 8 0x55 0x02 0x2A 0 0x15 .ok).Legal ∧ (running 4 0x16 0x02 0 0 0).Legal ∧
    (withPorts (ended 8 0x55 0x02 0x2A 0 0x15 .ok) [port 0x400, port 0x102]).inputs = port 0x400 :: [port 0x102] ∧
    (withPorts (running 4 0x16 0x02 0 0 0) [port 0x400, port 0x102]).inputs = port 0x400 :: [port 0x102] ∧
    (port 0x400).rst = false ∧ (port 0x400).startI = true ∧ 1 ≤ [port 0x102].length := by decide

end Sys2Proof.Tests
end

/-! SUPPORT. The registers, who writes them, and what is seen of them at the outputs (spec/10_state.md). -/

namespace Sys2Proof.Machine

/-! ## What a consumed byte does, in three forms -/

section Accept

variable (d : Byte) (r : Registers)

/-- The registers after a byte accepted at any of the positions 0 to 6 (R14 to R19), in one form for all seven. -/
def Registers.accept : Registers where
  phase := r.phase
  bytesReceived := r.bytesReceived + 1
  acc := if r.bytesReceived = 0 then 0 else r.acc + d
  statusRaw := if r.bytesReceived = 3 then d else r.statusRaw
  minutes := if r.bytesReceived = 4 then d else r.minutes
  readingInt := if r.bytesReceived = 5 then d else r.readingInt
  readingFrac := if r.bytesReceived = 6 then d else r.readingFrac
  result := r.result

/-- The registers after the byte at position 7 (R107): the count is 8, and the checksum decides the outcome. -/
def Registers.acceptChecksum : Registers :=
  { r with bytesReceived := 8 }.raiseTerminal (if d = r.acc ^^^ 0xFF then .ok else .checksumMismatch)

@[simp] theorem Registers.accept_phase : (r.accept d).phase = r.phase := rfl
@[simp] theorem Registers.accept_bytesReceived : (r.accept d).bytesReceived = r.bytesReceived + 1 := rfl
@[simp] theorem Registers.accept_result : (r.accept d).result = r.result := rfl

@[simp] theorem Registers.acceptChecksum_phase : (r.acceptChecksum d).phase = .done := rfl
@[simp] theorem Registers.acceptChecksum_bytesReceived : (r.acceptChecksum d).bytesReceived = 8 := rfl
@[simp] theorem Registers.acceptChecksum_acc : (r.acceptChecksum d).acc = r.acc := rfl
@[simp] theorem Registers.acceptChecksum_statusRaw : (r.acceptChecksum d).statusRaw = r.statusRaw := rfl
@[simp] theorem Registers.acceptChecksum_minutes : (r.acceptChecksum d).minutes = r.minutes := rfl
@[simp] theorem Registers.acceptChecksum_readingInt : (r.acceptChecksum d).readingInt = r.readingInt := rfl
@[simp] theorem Registers.acceptChecksum_readingFrac : (r.acceptChecksum d).readingFrac = r.readingFrac := rfl

theorem Registers.acceptChecksum_result :
    (r.acceptChecksum d).result = if d = r.acc ^^^ 0xFF then .ok else .checksumMismatch := rfl

end Accept

section Consume

variable {d : Byte} {r : Registers}

/-- A consumed byte is accepted at positions 0 to 6, is the checksum byte, or makes the attempt `MALFORMED`. -/
theorem consume_trichotomy (d : Byte) (r : Registers) :
    (r.Accepts d ∧ consume d r = r.accept d) ∨
    (r.bytesReceived = 7 ∧ consume d r = r.acceptChecksum d) ∨
    (¬ (r.Accepts d ∨ r.bytesReceived = 7) ∧ consume d r = r.raiseTerminal .malformed) := by
  rcases consume_cases d r with ⟨h, hd, e⟩ | ⟨h, hd, e⟩ | ⟨h, hd, e⟩ | ⟨h, hd, e⟩ | ⟨h, hd, e⟩ | ⟨h, hd, e⟩ |
    ⟨h, e⟩ | ⟨h, e⟩ | ⟨h, e⟩ | ⟨h, e⟩ | ⟨h, hd, e⟩ | ⟨h, hd, e⟩ | ⟨h, e⟩
  · exact .inl ⟨.inl ⟨h, hd⟩, by simp [e, Registers.accept, h]⟩
  · exact .inr (.inr ⟨by simpa [Registers.Accepts, h] using hd, e⟩)
  · exact .inl ⟨.inr (.inl ⟨h, hd⟩), by simp [e, Registers.accept, h]⟩
  · exact .inr (.inr ⟨by simpa [Registers.Accepts, h] using hd, e⟩)
  · exact .inl ⟨.inr (.inr (.inl ⟨h, hd⟩)), by simp [e, Registers.accept, h]⟩
  · exact .inr (.inr ⟨by simpa [Registers.Accepts, h] using hd, e⟩)
  · exact .inl ⟨by simp [Registers.Accepts, h], by simp [e, Registers.accept, h]⟩
  · exact .inl ⟨by simp [Registers.Accepts, h], by simp [e, Registers.accept, h]⟩
  · exact .inl ⟨by simp [Registers.Accepts, h], by simp [e, Registers.accept, h]⟩
  · exact .inl ⟨by simp [Registers.Accepts, h], by simp [e, Registers.accept, h]⟩
  · exact .inr (.inl ⟨h, by rw [e, Registers.acceptChecksum, if_pos hd]; rfl⟩)
  · exact .inr (.inl ⟨h, by rw [e, Registers.acceptChecksum, if_neg hd]; rfl⟩)
  · exact .inr (.inr ⟨by rw [Registers.Accepts]; bv_omega, e⟩)

/-- The positions of the accepted bytes. -/
theorem Registers.Accepts.count_le (h : r.Accepts d) : r.bytesReceived ≤ 6 := by
  rcases h with ⟨h, -⟩ | ⟨h, -⟩ | ⟨h, -⟩ | ⟨-, h⟩
  · simp [h]
  · simp [h]
  · simp [h]
  · exact h

theorem Registers.Accepts.count_ne_seven (h : r.Accepts d) : r.bytesReceived ≠ 7 := by
  intro h7
  have := h.count_le
  simp [h7] at this

theorem consume_of_accepts (h : r.Accepts d) : consume d r = r.accept d := by
  obtain ⟨-, e⟩ | ⟨h7, -⟩ | ⟨hn, -⟩ := consume_trichotomy d r
  · exact e
  · exact absurd h7 h.count_ne_seven
  · exact absurd (.inl h) hn

theorem consume_of_count_seven (h : r.bytesReceived = 7) : consume d r = r.acceptChecksum d := by
  obtain ⟨ha, -⟩ | ⟨-, e⟩ | ⟨hn, -⟩ := consume_trichotomy d r
  · exact absurd h ha.count_ne_seven
  · exact e
  · exact absurd (.inr h) hn

theorem consume_of_rejected (h : ¬ (r.Accepts d ∨ r.bytesReceived = 7)) :
    consume d r = r.raiseTerminal .malformed := by
  obtain ⟨ha, -⟩ | ⟨h7, -⟩ | ⟨-, e⟩ := consume_trichotomy d r
  · exact absurd (.inl ha) h
  · exact absurd (.inr h7) h
  · exact e

/-- Positions 3 to 6 reject no byte (R103 to R106). -/
theorem count_of_rejected (h : ¬ (r.Accepts d ∨ r.bytesReceived = 7)) :
    r.bytesReceived ≠ 3 ∧ r.bytesReceived ≠ 4 ∧ r.bytesReceived ≠ 5 ∧ r.bytesReceived ≠ 6 := by
  refine ⟨?_, ?_, ?_, ?_⟩ <;> exact fun h' => h (.inl (by simp [Registers.Accepts, h']))

/-- Each capture register takes the byte consumed at its own position (R16 to R19). -/
theorem consume_captures (d : Byte) (r : Registers) :
    (consume d r).statusRaw = (if r.bytesReceived = 3 then d else r.statusRaw) ∧
    (consume d r).minutes = (if r.bytesReceived = 4 then d else r.minutes) ∧
    (consume d r).readingInt = (if r.bytesReceived = 5 then d else r.readingInt) ∧
    (consume d r).readingFrac = (if r.bytesReceived = 6 then d else r.readingFrac) := by
  obtain ⟨-, e⟩ | ⟨h7, e⟩ | ⟨hn, e⟩ := consume_trichotomy d r
  · rw [e]
    exact ⟨rfl, rfl, rfl, rfl⟩
  · simp [e, h7]
  · obtain ⟨h3, h4, h5, h6⟩ := count_of_rejected hn
    rw [e, if_neg h3, if_neg h4, if_neg h5, if_neg h6]
    exact ⟨rfl, rfl, rfl, rfl⟩

/-- R14's bound, for the bytes: a count of at most 8 stays so. -/
theorem consume_bytesReceived_le (h : r.bytesReceived ≤ 8) : (consume d r).bytesReceived ≤ 8 := by
  obtain ⟨ha, e⟩ | ⟨-, e⟩ | ⟨-, e⟩ := consume_trichotomy d r
  · have := ha.count_le
    rw [e, Registers.accept_bytesReceived]
    bv_omega
  · simp [e]
  · simpa [e] using h

end Consume

/-! ## What a command leaves in the count and the captures -/

section EndOfSource

variable (r : Registers)

/-- The end of the source writes `phase` and `result` only (R83). -/
theorem Registers.endOfSource_eq :
    r.endOfSource = { r with phase := r.endOfSource.phase, result := r.endOfSource.result } := by
  by_cases h : r.phase = .run <;> simp [h, Registers.raiseTerminal]

@[simp] theorem Registers.endOfSource_bytesReceived : r.endOfSource.bytesReceived = r.bytesReceived := by
  rw [endOfSource_eq]
@[simp] theorem Registers.endOfSource_acc : r.endOfSource.acc = r.acc := by rw [endOfSource_eq]
@[simp] theorem Registers.endOfSource_statusRaw : r.endOfSource.statusRaw = r.statusRaw := by rw [endOfSource_eq]
@[simp] theorem Registers.endOfSource_minutes : r.endOfSource.minutes = r.minutes := by rw [endOfSource_eq]
@[simp] theorem Registers.endOfSource_readingInt : r.endOfSource.readingInt = r.readingInt := by
  rw [endOfSource_eq]
@[simp] theorem Registers.endOfSource_readingFrac : r.endOfSource.readingFrac = r.readingFrac := by
  rw [endOfSource_eq]

end EndOfSource

section Commands

variable {d : Byte} {r : Registers} {s t : State}

/-- R14's bound: no command takes a count of at most 8 past 8. -/
theorem commandRegs_bytesReceived_le (i : Instr) (h : r.bytesReceived ≤ 8) :
    (commandRegs i r).bytesReceived ≤ 8 := by
  have hoffer : ∀ d, (offer d r).bytesReceived ≤ 8 := fun d => by
    by_cases hp : r.phase = .run
    · simpa [hp] using consume_bytesReceived_le h
    · simpa [hp] using h
  cases i with
  | nop => exact h
  | byte d => exact hoffer d
  | eos => simpa using h
  | byteEos d => simpa using hoffer d
  | start => simp

/-- BYTE and BYTE_EOS differ in the end of the source only, after the byte (R84). -/
theorem regs_of_offered (h : exec (.byte d) s = .next t ∨ exec (.byteEos d) s = .next t) :
    t.regs = offer d s.regs ∨ t.regs = (offer d s.regs).endOfSource := by
  rcases h with h | h
  · exact .inl (by simp [exec_next_iff.1 h])
  · exact .inr (by simp [exec_next_iff.1 h])

theorem bytesReceived_of_offered (h : exec (.byte d) s = .next t ∨ exec (.byteEos d) s = .next t) :
    t.regs.bytesReceived = (offer d s.regs).bytesReceived := by
  rcases regs_of_offered h with e | e <;> simp [e]

/-- NOP leaves the registers as they are, and EOS is the end of the source alone (R82, R83). -/
theorem regs_of_nop_or_eos (h : exec .nop s = .next t ∨ exec .eos s = .next t) :
    t.regs = s.regs ∨ t.regs = s.regs.endOfSource := by
  rcases h with h | h
  · exact .inl (by simp [exec_next_iff.1 h])
  · exact .inr (by simp [exec_next_iff.1 h])

theorem regs_of_start (h : exec .start s = .next t) : t.regs = Registers.fresh := by simp [exec_next_iff.1 h]

end Commands

/-! ## The history of the accepted bytes -/

section Lists

variable (x d : Byte) (h xs : List Byte)

theorem byteSum_cons : byteSum (x :: xs) = x + byteSum xs := by
  induction xs using List.reverseRecOn with
  | nil => simp [byteSum]
  | append_singleton ys y ih =>
    rw [← List.cons_append, byteSum_append, ih, byteSum_append]
    exact BitVec.add_assoc _ _ _

/-- A byte that joins a history is read back at the history's old length. -/
theorem getD_concat (j : Nat) : (h ++ [d]).getD j 0 = if h.length = j then d else h.getD j 0 := by
  rcases lt_trichotomy j h.length with hj | rfl | hj
  · rw [List.getD_append _ _ _ _ hj, if_neg hj.ne']
  · simp
  · rw [List.getD_eq_default _ _ (by simpa using hj), List.getD_eq_default _ _ hj.le, if_neg hj.ne]

/-- The two forms of the expected checksum (R123). -/
theorem xor_complement_eq_sub (a : Byte) : a ^^^ 0xFF = 0xFF - a := by revert a; decide

end Lists

/-- The accepted bytes after a byte is offered. -/
def offerHistory (d : Byte) (r : Registers) (h : List Byte) : List Byte :=
  if r.phase = .run ∧ (r.Accepts d ∨ r.bytesReceived = 7) then h ++ [d] else h

/-- The accepted bytes after a command: `historyEdge`, for the command the ports decode to. -/
def commandHistory : Instr → Registers → List Byte → List Byte
  | .nop, _, h => h
  | .byte d, r, h => offerHistory d r h
  | .eos, _, h => h
  | .byteEos d, r, h => offerHistory d r h
  | .start, _, _ => []

theorem historyEdge_of_rst {p : Ports} (hr : p.rst = true) (r : Registers) (h : List Byte) :
    historyEdge p r h = [] := by
  simp [historyEdge, hr]

theorem historyEdge_of_not_rst {p : Ports} (hr : p.rst = false) (r : Registers) (h : List Byte) :
    historyEdge p r h = commandHistory (decodeWord p.word) r h := by
  rw [decodeWord_ports]
  cases hs : p.startI with
  | true => simp [historyEdge, hs, commandHistory]
  | false =>
    cases hv : p.inValidI with
    | true => cases p.inEosI <;> simp [historyEdge, hr, hs, hv, commandHistory, offerHistory, consumes_iff]
    | false => cases p.inEosI <;> simp [historyEdge, hr, hs, hv, commandHistory, consumes_iff]

namespace HistoryInv

variable {d : Byte} {r : Registers} {h : List Byte}

theorem legal (hi : HistoryInv r h) : r.Legal :=
  ⟨hi.phase_legal, fun hp => by rw [hi.idle_reset hp]; rfl, fun _ => by
    have := hi.count
    have := hi.at_most_eight
    bv_omega⟩

theorem count_eq_iff (hi : HistoryInv r h) {n : Nat} (hn : n < 16) :
    r.bytesReceived = BitVec.ofNat 4 n ↔ h.length = n := by
  rw [hi.count]
  bv_omega

theorem reset : HistoryInv Registers.reset [] := by constructor <;> decide

theorem fresh : HistoryInv Registers.fresh [] := by constructor <;> decide

/-- A failure ends the attempt and keeps its history. -/
theorem raiseTerminal {c : Result} (hi : HistoryInv r h) (hc : c ≠ .ok) : HistoryInv (r.raiseTerminal c) h :=
  { hi with
    phase_legal := by simp
    idle_reset := by simp
    run_ok := by simp
    full_done := by simp
    reading := fun hv => absurd (readingValid_raiseTerminal.1 hv) hc }

theorem endOfSource (hi : HistoryInv r h) : HistoryInv r.endOfSource h := by
  by_cases hp : r.phase = .run
  · rw [Registers.endOfSource_of_run hp]
    exact hi.raiseTerminal (by decide)
  · rwa [Registers.endOfSource_of_not_run hp]

/-- Accepted marker bytes are the markers, in their order (R100 to R102). -/
theorem markers_accept (hi : HistoryInv r h) (ha : r.Accepts d) :
    (h ++ [d]).take 3 = [0x02, 0x10, 0x04].take (h ++ [d]).length := by
  have hc := hi.count
  have hm := hi.markers
  by_cases h3 : 3 ≤ h.length
  · rw [List.take_append_of_le_length h3, hm, List.take_of_length_le h3, List.take_of_length_le (by simp; omega)]
  · rw [List.take_of_length_le (by omega)] at hm
    rcases ha with ⟨hn, rfl⟩ | ⟨hn, rfl⟩ | ⟨hn, rfl⟩ | ⟨hn, -⟩
    · rw [hm, hc, hn]; rfl
    · rw [hm, hc, hn]; rfl
    · rw [hm, hc, hn]; rfl
    · exact absurd hn (by bv_omega)

/-- The accumulator sums the bytes from position 1 on (R120 to R122). -/
theorem sum_accept (hi : HistoryInv r h) (ha : r.Accepts d) :
    (r.accept d).acc = byteSum (((h ++ [d]).drop 1).take 6) := by
  have hc := hi.count
  have hs := hi.sum
  have hle := ha.count_le
  cases h with
  | nil =>
    have hn : r.bytesReceived = 0 := (hi.count_eq_iff (by decide)).2 rfl
    simp [Registers.accept, hn]
  | cons a h =>
    have hn : r.bytesReceived ≠ 0 := fun h0 => by
      simpa using (hi.count_eq_iff (n := 0) (by decide)).1 h0
    have hl : h.length ≤ 5 := by rw [List.length_cons] at hc; bv_omega
    rw [List.drop_one, List.tail_cons, List.take_of_length_le (by omega)] at hs
    simp only [List.cons_append, List.drop_one, List.tail_cons]
    rw [List.take_of_length_le (by simp; omega), byteSum_append, ← hs]
    exact if_neg hn

/-- A byte that enters the history enters its capture register, if its position has one. -/
theorem captures_concat (hi : HistoryInv r h) :
    (if r.bytesReceived = 3 then d else r.statusRaw) = (h ++ [d]).getD 3 0 ∧
    (if r.bytesReceived = 4 then d else r.minutes) = (h ++ [d]).getD 4 0 ∧
    (if r.bytesReceived = 5 then d else r.readingInt) = (h ++ [d]).getD 5 0 ∧
    (if r.bytesReceived = 6 then d else r.readingFrac) = (h ++ [d]).getD 6 0 := by
  rw [getD_concat, getD_concat, getD_concat, getD_concat, ← hi.status, ← hi.mins, ← hi.int, ← hi.frac]
  exact ⟨if_congr (hi.count_eq_iff (by decide)) rfl rfl, if_congr (hi.count_eq_iff (by decide)) rfl rfl,
    if_congr (hi.count_eq_iff (by decide)) rfl rfl, if_congr (hi.count_eq_iff (by decide)) rfl rfl⟩

theorem accept (hi : HistoryInv r h) (hp : r.phase = .run) (ha : r.Accepts d) :
    HistoryInv (r.accept d) (h ++ [d]) := by
  have hc := hi.count
  have hle := ha.count_le
  have hl : h.length ≤ 6 := by bv_omega
  obtain ⟨hst, hmi, hin, hfr⟩ := hi.captures_concat (d := d)
  exact
    { count := by simp; bv_omega
      markers := hi.markers_accept ha
      sum := hi.sum_accept ha
      status := hst
      mins := hmi
      int := hin
      frac := hfr
      phase_legal := hi.phase_legal
      idle_reset := by simp [hp]
      run_ok := fun _ => ⟨(hi.run_ok hp).1, by simp; omega⟩
      full_done := by simp; omega
      at_most_eight := by simp; omega
      reading := by simp [readingValid, hp] }

/-- The checksum byte: a Reading stands only where it is the expected one (R107, R124). -/
theorem acceptChecksum (hi : HistoryInv r h) (h7 : r.bytesReceived = 7) :
    HistoryInv (r.acceptChecksum d) (h ++ [d]) := by
  have hl : h.length = 7 := by rw [hi.count, h7]; rfl
  have hsum : ((h ++ [d]).drop 1).take 6 = (h.drop 1).take 6 := by
    rw [List.drop_append_of_le_length (by omega), List.take_append_of_le_length (by simp; omega)]
  obtain ⟨hst, hmi, hin, hfr⟩ := hi.captures_concat (d := d)
  simp only [h7] at hst hmi hin hfr
  exact
    { count := by simp [hl]
      markers := by
        rw [List.take_append_of_le_length (by omega), hi.markers, hl]; simp [hl]
      sum := by rw [hsum]; exact hi.sum
      status := hst
      mins := hmi
      int := hin
      frac := hfr
      phase_legal := by simp
      idle_reset := by simp
      run_ok := by simp
      full_done := by simp
      at_most_eight := by simp [hl]
      reading := fun hv => by
        have hd : d = r.acc ^^^ 0xFF := by
          by_contra hd
          rw [readingValid_iff, Registers.acceptChecksum_result, if_neg hd] at hv
          exact absurd hv.2 (by decide)
        refine ⟨by simp [hl], ?_⟩
        rw [hsum, ← hi.sum, getD_concat, if_pos hl, hd, xor_complement_eq_sub] }

/-- An offered byte keeps the invariant, accepted, rejected or left with the source. -/
theorem offer (hi : HistoryInv r h) (d : Byte) : HistoryInv (offer d r) (offerHistory d r h) := by
  by_cases hp : r.phase = .run
  · rw [offer_of_run d hp]
    obtain ⟨ha, e⟩ | ⟨h7, e⟩ | ⟨hn, e⟩ := consume_trichotomy d r
    · rw [e, offerHistory, if_pos ⟨hp, .inl ha⟩]
      exact hi.accept hp ha
    · rw [e, offerHistory, if_pos ⟨hp, .inr h7⟩]
      exact hi.acceptChecksum h7
    · rw [e, offerHistory, if_neg fun hh => hn hh.2]
      exact hi.raiseTerminal (by decide)
  · rwa [offer_of_not_run d hp, offerHistory, if_neg fun hh => hp hh.1]

theorem command (hi : HistoryInv r h) (i : Instr) : HistoryInv (commandRegs i r) (commandHistory i r h) := by
  cases i with
  | nop => exact hi
  | byte d => exact hi.offer d
  | eos => exact hi.endOfSource
  | byteEos d => exact (hi.offer d).endOfSource
  | start => exact fresh

/-- Every step keeps the history invariant, whatever the ports hold. -/
theorem step {s t : State} (hi : HistoryInv s.regs h) (hs : step s = .next t) :
    HistoryInv t.regs (historyEdge s.sample s.regs h) := by
  obtain ⟨hr, rfl⟩ | ⟨hr, -, rfl⟩ := step_cases hs
  · rw [historyEdge_of_rst hr]
    exact reset
  · rw [historyEdge_of_not_rst hr]
    exact hi.command _

/-- The accumulator as R30 puts it: the two summed markers, then the captured bytes. -/
theorem acc_eq_markers_add (hi : HistoryInv r h) (h3 : 3 ≤ r.bytesReceived.toNat) :
    r.acc = 0x14 + byteSum ((h.drop 3).take (min r.bytesReceived.toNat 7 - 3)) := by
  have hc := hi.count
  have hm := hi.markers
  rw [List.take_of_length_le (l := [0x02, 0x10, 0x04]) (by simp; omega)] at hm
  have hh : h = [0x02, 0x10, 0x04] ++ h.drop 3 := by rw [← hm, List.take_append_drop]
  have ht : (h.drop 3).take (min r.bytesReceived.toNat 7 - 3) = (h.drop 3).take 4 := by
    rw [List.take_eq_take_iff, List.length_drop]; omega
  rw [ht, hi.sum]
  conv_lhs => rw [hh]
  simp [byteSum_cons, ← BitVec.add_assoc]

/-- The seven items of R30 follow from the history invariant. -/
theorem items (hi : HistoryInv r h) : R30Items r h := by
  have hc := hi.count
  have nonzero : ∀ j, h.getD j 0 ≠ 0 → j < r.bytesReceived.toNat := fun j hj => by
    by_contra hlt
    exact hj (List.getD_eq_default _ _ (by omega))
  exact
    { item1 := hi.phase_legal
      item2 := hi.idle_reset
      item3 := fun hp => hc ▸ hi.run_ok hp
      item4 := ⟨hc ▸ hi.at_most_eight, fun h8 => hi.full_done (hc.trans h8)⟩
      item5markers := fun k _ hk hkn => by
        calc h.take k = (h.take 3).take k := by rw [List.take_take, min_eq_left hk]
          _ = ([0x02, 0x10, 0x04].take h.length).take k := by rw [hi.markers]
          _ = [0x02, 0x10, 0x04].take k := by rw [List.take_take, min_eq_left (by omega)]
      item5one := fun h1 => by
        obtain ⟨a, rfl⟩ := List.length_eq_one_iff.1 (hc.trans h1)
        exact hi.sum
      item5two := fun h2 => by
        obtain ⟨a, b, rfl⟩ := List.length_eq_two.1 (hc.trans h2)
        obtain ⟨-, rfl⟩ : a = 0x02 ∧ b = 0x10 := by simpa using hi.markers
        exact hi.sum
      item5sum := hi.acc_eq_markers_add
      item6 := ⟨fun h0 => nonzero 3 (hi.status ▸ h0), fun h0 => nonzero 4 (hi.mins ▸ h0),
        fun h0 => nonzero 5 (hi.int ▸ h0), fun h0 => nonzero 6 (hi.frac ▸ h0)⟩
      item7 := fun hv => hc ▸ (hi.reading hv).1 }

end HistoryInv

/-- From register values that are no fault every step answers a next state. -/
theorem exists_step_of_legal {s : State} (hl : s.regs.Legal) : ∃ t, step s = .next t := by
  cases hr : s.sample.rst with
  | true => exact ⟨_, step_of_rst hr⟩
  | false => exact ⟨_, (step_of_legal hr hl).trans (exec_eq _ _)⟩

/-- The history invariant, and that no step stops, carried along a run of any length. -/
theorem run_of_historyInv (k : Nat) {s : State} {h : List Byte} (hi : HistoryInv s.regs h) :
    ∃ t, Host.Core.run Sys2Proof.core k s = .next t ∧ HistoryInv t.regs (historyRun k s h) := by
  induction k generalizing s h with
  | zero => exact ⟨s, rfl, hi⟩
  | succ k ih =>
    obtain ⟨s', hs⟩ := exists_step_of_legal hi.legal
    obtain ⟨t, ht, hit⟩ := ih (hi.step hs)
    exact ⟨t, by rw [run_succ k hs, ht], by simpa only [historyRun, hs] using hit⟩

/-- Outside RUN an edge without reset and START only uses up its sample (R82, R86). -/
theorem step_outside_run {s : State} (hl : s.regs.Legal) (hp : s.regs.phase ≠ .run) (hr : s.sample.rst = false)
    (hs : s.sample.startI = false) : step s = .next s.advance := by
  have hi : decodeWord s.sample.word ≠ .start := by
    rw [decodeWord_ports, hs]
    exact commandOf_ne_start _ _ _
  rw [step_of_legal hr hl, exec_eq, State.advance_regs, commandRegs_of_not_run hp hi, ← State.advance_regs s,
    State.withRegs_self]

/-! ## The outputs -/

section Outputs

variable {r : Registers} (b : Bool)

/-- The outputs while a Reading is presented (R28). -/
theorem outputs_of_reading (h : readingValid r = true) :
    outputs r b = ⟨inReady r b, busy r, isDone r, r.result.code, r.bytesReceived, true, r.statusRaw,
      mapStatus r.statusRaw, r.minutes, r.readingInt, r.readingFrac, valueCenti r.readingInt r.readingFrac⟩ := by
  simp [outputs, h]

/-- The outputs while none is: the Reading outputs are 0 (R28). -/
theorem outputs_of_no_reading (h : readingValid r = false) :
    outputs r b = ⟨inReady r b, busy r, isDone r, r.result.code, r.bytesReceived, false, 0, 0, 0, 0, 0, 0⟩ := by
  simp [outputs, h]

end Outputs

/-! ## The obligations -/

/-- Settles O20: the history invariant holds at reset and along every run, and gives the seven items. -/
theorem reachableStatesSatisfyR30 : Obligations.ReachableStatesSatisfyR30 := by
  intro k s hs
  obtain ⟨t, ht, hi⟩ := run_of_historyInv k (hs ▸ HistoryInv.reset : HistoryInv s.regs [])
  exact ⟨t, ht, hi.items⟩

/-- Settles O37, by the three forms of a consumed byte. -/
theorem countFollowsTheAcceptedBytes : Obligations.CountFollowsTheAcceptedBytes := by
  refine ⟨rfl, fun s t h => ?_, fun s t h => ?_, fun d s t h => ?_, fun s t h8 h => ?_⟩
  · simp [regs_of_start h]
  · rcases regs_of_nop_or_eos h with e | e <;> simp [e]
  · rw [bytesReceived_of_offered h]
    refine ⟨fun hp ha => ?_, fun hp h7 => ?_, fun hn => ?_⟩
    · rw [offer_of_run d hp, consume_of_accepts ha, Registers.accept_bytesReceived]
    · rw [offer_of_run d hp, consume_of_count_seven h7, Registers.acceptChecksum_bytesReceived]
    · by_cases hp : s.regs.phase = .run
      · have hrej := hn.resolve_left (not_not_intro hp)
        rw [offer_of_run d hp, consume_of_rejected (not_or.2 hrej), Registers.raiseTerminal_bytesReceived]
      · rw [offer_of_not_run d hp]
  · rw [step_regs h]
    split
    · decide
    · exact commandRegs_bytesReceived_le _ h8

/-- Settles O39: a consumed byte enters the capture of its position, and the end of the source writes none. -/
theorem capturesWrittenOnlyAtTheirPosition : Obligations.CapturesWrittenOnlyAtTheirPosition := by
  refine ⟨⟨rfl, rfl, rfl, rfl⟩, fun s t h => ?_, fun s t h => ?_, fun d s t h => ?_⟩
  · simp [regs_of_start h]
  · rcases regs_of_nop_or_eos h with e | e <;> simp [e]
  · by_cases hp : s.regs.phase = .run
    · rcases regs_of_offered h with e | e <;> simpa [e, hp] using consume_captures d s.regs
    · rcases regs_of_offered h with e | e <;> simp [e, hp]

/-- Settles O45: the outputs with and without a Reading, and that a step outside RUN keeps the registers. -/
theorem outputsAreFunctionsOfTheRegisters : Obligations.OutputsAreFunctionsOfTheRegisters := by
  refine ⟨fun r b => ⟨fun c => rfl, ?_, fun p => ?_, ?_, ?_, rfl, rfl, ?_, fun hp hc => ?_, fun hn => ?_⟩,
    ⟨rfl, rfl, rfl, rfl⟩, fun s b hl hd hr hs => ?_⟩
  · simp [outputs, inReady, beq_eq_decide]
  · change _ ↔ _ ∧ inReady r p.startI = true ∧ _
    rw [consumes_iff, inReady_iff]
    tauto
  · simp [outputs, busy, beq_eq_decide]
  · simp [outputs, isDone, beq_eq_decide]
  · simp [outputs, readingValid, beq_eq_decide]
  · rw [outputs_of_reading b (readingValid_iff.2 ⟨hp, hc⟩)]
    exact ⟨rfl, rfl, rfl, rfl, rfl, rfl⟩
  · have hv : readingValid r = false := by
      rw [Bool.eq_false_iff, ne_eq, readingValid_iff, not_and_or]
      exact hn
    rw [outputs_of_no_reading b hv]
    exact ⟨rfl, rfl, rfl, rfl, rfl, rfl⟩
  · have hdone : s.regs.phase = .done := by simpa [outputs, isDone] using hd
    refine ⟨_, step_outside_run hl (by simp [hdone]) hr hs, fun c => ?_⟩
    rw [State.advance_regs]
    exact hd

/-- Settles O46: without a Reading the outputs are written in `phase`, `result` and the count alone. -/
theorem partialCapturesAreHidden : Obligations.PartialCapturesAreHidden := by
  refine ⟨fun r r' b hv hp hc hn => ?_, fun r a b => rfl⟩
  have hv' : readingValid r' = false := by
    rw [readingValid, hp, hc]
    exact hv
  rw [outputs_of_no_reading b hv', outputs_of_no_reading b hv, inReady, inReady, busy, busy, isDone, isDone, hp, hc, hn]

end Sys2Proof.Machine

/-! SUPPORT. What an edge owes to a byte it does not consume (spec/20_memory.md R42). -/

namespace Sys2Proof.Machine

section Unconsumed

variable {s : State} {p q : Ports} {ps : List Ports}

/-- The sample on the ports with no byte offered, and `x` on `in_data_i`. -/
def Ports.withoutByte (p : Ports) (x : Byte) : Ports := { p with inValidI := false, inDataI := x }

@[simp] theorem Ports.withoutByte_rst (x : Byte) : (p.withoutByte x).rst = p.rst := rfl

/-- With no byte offered the data on the ports is no part of the command (R56, R58, R60). -/
theorem decodeWord_withoutByte (p : Ports) (x : Byte) :
    decodeWord (p.withoutByte x).word = commandOf p.startI p.inEosI false 0 := by
  rw [decodeWord_ports]
  cases hs : p.startI with
  | true => simp [Ports.withoutByte, hs]
  | false => cases he : p.inEosI <;> simp [Ports.withoutByte, hs, he]

/-- Two samples act alike on registers when their commands do, and any two samples with reset do. -/
theorem edge_congr (hr : p.rst = q.rst)
    (hc : p.rst = false → commandRegs (decodeWord p.word) s.regs = commandRegs (decodeWord q.word) s.regs) :
    edge p s = edge q s := by
  cases h : p.rst with
  | true => rw [edge, edge, ← hr, if_pos h, if_pos h]
  | false => simp only [edge, exec_eq, ← hr, h, hc h]

/-- A byte that is not consumed leaves the registers to the rest of the command: START runs anyway, and outside RUN
no other command writes. -/
theorem commandRegs_withoutByte {r : Registers} (x : Byte) (hr : p.rst = false) (hc : consumes r p = false) :
    commandRegs (decodeWord p.word) r = commandRegs (decodeWord (p.withoutByte x).word) r := by
  rw [decodeWord_withoutByte, decodeWord_ports]
  cases hs : p.startI with
  | true => rfl
  | false =>
    cases hv : p.inValidI with
    | false => cases p.inEosI <;> rfl
    | true =>
      have hp : r.phase ≠ .run := fun hp => by simp [consumes_iff.2 ⟨hr, hv, hp, hs⟩] at hc
      rw [commandRegs_of_not_run hp (commandOf_ne_start _ _ _), commandRegs_of_not_run hp (commandOf_ne_start _ _ _)]

/-- A step with a scheduled sample is the edge at which the ports hold it. -/
theorem step_of_cons (h : s.inputs = p :: ps) : step s = edge p { s with inputs := ps } := by
  rw [step, State.sample_of_cons h, State.advance_of_cons h]

end Unconsumed

/-- Settles O49: the two samples agree on reset, and without reset their commands write the same registers. -/
theorem unconsumedByteHasNoEffect : Obligations.UnconsumedByteHasNoEffect := by
  intro s p ps x h _ hc
  calc step s
    _ = edge p { s with inputs := ps } := step_of_cons h
    _ = edge (p.withoutByte x) { s with inputs := ps } :=
      edge_congr (Ports.withoutByte_rst x).symm fun hr => commandRegs_withoutByte x hr hc
    _ = step { s with inputs := p.withoutByte x :: ps } :=
      (step_of_cons (s := { s with inputs := p.withoutByte x :: ps }) rfl).symm

end Sys2Proof.Machine

/-! SUPPORT. The opcode table and the decoder's word (spec/30_encoding.md sections 1, 4 and 5). -/

namespace Sys2Proof

/-! ## The rows of the opcode table -/

section Rows

variable {i : Instr}

theorem Instr.row_mem_opcodeTable (i : Instr) : i.row ∈ opcodeTable := by
  cases i <;> simp [Instr.row, opcodeTable]

theorem opcodeTable_nodup : opcodeTable.Nodup := by decide

theorem Instr.row_eq_nop_row : i.row = Instr.nop.row ↔ i = .nop := by cases i <;> simp [Instr.row]
theorem Instr.row_eq_byte_row : i.row = (Instr.byte 0).row ↔ ∃ d, i = .byte d := by cases i <;> simp [Instr.row]
theorem Instr.row_eq_eos_row : i.row = Instr.eos.row ↔ i = .eos := by cases i <;> simp [Instr.row]
theorem Instr.row_eq_byteEos_row : i.row = (Instr.byteEos 0).row ↔ ∃ d, i = .byteEos d := by
  cases i <;> simp [Instr.row]
theorem Instr.row_eq_start_row : i.row = Instr.start.row ↔ i = .start := by cases i <;> simp [Instr.row]

end Rows

/-! ## The words a row covers -/

section Covers

variable (s e v : Bool) (d : Byte) (w : CommandWord) {row : OpcodeRow}

/-- The mask of `w[10:8]` clears the data byte and nothing else. -/
theorem packWord_and_selectorMask : packWord s e v d &&& 0x700 = packWord s e v 0 := by
  refine BitVec.eq_of_getLsbD_eq fun i hi => ?_
  rw [BitVec.getLsbD_and, getLsbD_packWord, getLsbD_packWord]
  interval_cases i <;> simp

/-- No row of the table looks at the data byte. -/
theorem covers_packWord (hrow : row ∈ opcodeTable) :
    row.covers (packWord s e v d) = row.covers (packWord s e v 0) := by
  have hmask : 0x700 &&& row.mask = row.mask := by
    revert row
    decide
  rw [OpcodeRow.covers, OpcodeRow.covers, ← packWord_and_selectorMask s e v d, BitVec.and_assoc, hmask]

/-- The command's row depends on `S`, `E` and `V` alone. -/
theorem row_commandOf : (commandOf s e v d).row = (commandOf s e v 0).row := by
  cases s <;> cases e <;> cases v <;> rfl

/-- A row covers exactly the words whose command is the row's: the data byte put aside, the eight settings of `S`, `E`
and `V` are compared with the five rows. -/
theorem covers_eq_beq_row (hrow : row ∈ opcodeTable) : row.covers w = (row == (decodeWord w).row) := by
  have hsel : ∀ row ∈ opcodeTable, ∀ s e v, row.covers (packWord s e v 0) = (row == (commandOf s e v 0).row) := by
    decide
  conv_lhs => rw [← packWord_fields w]
  rw [covers_packWord _ _ _ _ hrow, decodeWord, row_commandOf, hsel row hrow]

/-- A word matches a command's row under its mask exactly when it decodes to a command of that row. -/
theorem and_mask_eq_pattern_iff (i : Instr) : w &&& i.row.mask = i.row.pattern ↔ (decodeWord w).row = i.row := by
  have h := covers_eq_beq_row w i.row_mem_opcodeTable
  rw [OpcodeRow.covers, Bool.eq_iff_iff, beq_iff_eq, beq_iff_eq] at h
  rw [h, eq_comm]

theorem filter_covers_opcodeTable : opcodeTable.filter (fun row => row.covers w) = [(decodeWord w).row] := by
  calc opcodeTable.filter (fun row => row.covers w)
    _ = opcodeTable.filter (· == (decodeWord w).row) := List.filter_congr fun _ hrow => covers_eq_beq_row w hrow
    _ = List.replicate (opcodeTable.count (decodeWord w).row) (decodeWord w).row := List.filter_beq _
    _ = [(decodeWord w).row] := by
      rw [List.count_eq_one_of_mem opcodeTable_nodup (Instr.row_mem_opcodeTable _)]
      rfl

end Covers

/-! ## The command by the bits of the word -/

section Bits

variable {w : CommandWord}

/-- The command by `w[10:8]`, with the data byte in `w[7:0]` (R56 to R60). -/
theorem decodeWord_of_selector {c : BitVec 3} (h : w.extractLsb' 8 3 = c) :
    decodeWord w = commandOf (c.getLsbD 2) (c.getLsbD 1) (c.getLsbD 0) (w.extractLsb' 0 8) := by
  subst h
  simp [decodeWord, fieldS, fieldE, fieldV, fieldD]

theorem decodeWord_eq_start_iff : decodeWord w = .start ↔ w.getLsbD 10 = true := by
  rw [decodeWord, fieldS]
  cases w.getLsbD 10 with
  | true => simp
  | false => simpa using commandOf_ne_start _ _ _

end Bits

end Sys2Proof

namespace Sys2Proof.Machine

/-! ## One edge with given port levels -/

section Edge

variable {p : Ports} {s : State}

theorem edge_of_rst (h : p.rst = true) : edge p s = .next (s.withRegs Registers.reset) := if_pos h

theorem edge_of_legal (h : p.rst = false) (hl : s.regs.Legal) : edge p s = exec (decodeWord p.word) s := by
  simp [edge, h, Registers.fault?_eq_none_iff.2 hl]

end Edge

/-! ## The value of a Reading, and the checksum as a difference -/

/-- No 16-bit carry is lost: 100 · 255 + 255 = 25755 fits (R66). -/
theorem valueCenti_toNat (i f : Byte) : (valueCenti i f).toNat = 100 * i.toNat + f.toNat := by
  have hi := i.isLt
  have hf := f.isLt
  have h100 : (100 : BitVec 16).toNat = 100 := rfl
  rw [valueCenti, BitVec.toNat_add, BitVec.toNat_mul, BitVec.toNat_setWidth, BitVec.toNat_setWidth, h100]
  omega

/-- The checksum of a byte string as a subtraction from FF (R69, R126). -/
theorem ck_eq_sub (xs : List Byte) : ck xs = 0xFF - byteSum xs := xor_complement_eq_sub _

/-! ## The obligations -/

/-- Settles O3: a row covers the words whose command is its own, each row stands once in the table, and outside RUN
START alone writes registers. -/
theorem fivePatternsPartitionTheWords : Obligations.FivePatternsPartitionTheWords := by
  refine ⟨filter_covers_opcodeTable, fun w s => ⟨_, exec_eq _ _⟩, fun w s hw hp => ?_⟩
  have hi : decodeWord w ≠ .start := mt decodeWord_eq_start_iff.1 (Bool.eq_false_iff.1 hw)
  rw [exec_eq, commandRegs_of_not_run hp hi, State.withRegs_self]

/-- Settles O4: the patterns by `w[10:8]`, the masks by the words each row covers. -/
theorem commandPatternsDecode : Obligations.CommandPatternsDecode := fun w =>
  ⟨decodeWord_of_selector, decodeWord_of_selector, decodeWord_of_selector, decodeWord_of_selector,
    decodeWord_eq_start_iff.2,
    (and_mask_eq_pattern_iff w .nop).trans Instr.row_eq_nop_row,
    (and_mask_eq_pattern_iff w (.byte 0)).trans Instr.row_eq_byte_row,
    (and_mask_eq_pattern_iff w .eos).trans Instr.row_eq_eos_row,
    (and_mask_eq_pattern_iff w (.byteEos 0)).trans Instr.row_eq_byteEos_row,
    (and_mask_eq_pattern_iff w .start).trans Instr.row_eq_start_row⟩

/-- Settles O6: the fields read back from the packed word, and the two edges of R80. -/
theorem portsPackIntoTheCommandWord : Obligations.PortsPackIntoTheCommandWord :=
  ⟨fun _ => ⟨fieldS_packWord _ _ _ _, fieldE_packWord _ _ _ _, fieldV_packWord _ _ _ _, fieldD_packWord _ _ _ _,
      fun _ => rfl⟩,
    fun w => ⟨Ports.word_ofWord w, Ports.rst_ofWord w⟩, fun _ _ => edge_of_legal, fun _ _ => edge_of_rst⟩

/-- Settles O47: the value as a number, and its bound at two bytes of 255. -/
theorem valueCentiIsExact : Obligations.ValueCentiIsExact := by
  refine ⟨by decide, fun i f => ⟨valueCenti_toNat i f, ?_⟩⟩
  have hi := i.isLt
  have hf := f.isLt
  rw [valueCenti_toNat]
  omega

/-- Settles O56: only RESPONSE computes, a checksum that is FF minus the sum. -/
theorem pseudoInstructionsExpand : Obligations.PseudoInstructionsExpand := by
  refine ⟨fun _ _ _ _ _ _ _ _ => ⟨rfl, rfl⟩, fun st mi ri rf => ?_, fun _ => rfl⟩
  have hsum : byteSum [0x10, 0x04, st, mi, ri, rf] = 0x10 + 0x04 + st + mi + ri + rf := rfl
  rw [← hsum, ← ck_eq_sub]
  rfl

end Sys2Proof.Machine

/-! SUPPORT. The commands one by one, and the summary table of one edge (spec/40_control.md). -/

namespace Sys2Proof.Machine

/-! ## The commands on the whole state -/

section Exec

variable {s u : State} {i : Instr} {d : Byte}

/-- Outside RUN every command but START is without effect (R86). -/
theorem exec_of_not_run (hp : s.regs.phase ≠ .run) (hi : i ≠ .start) : exec i s = .next s := by
  rw [exec_eq, commandRegs_of_not_run hp hi, State.withRegs_self]

theorem exec_eos_of_run (hp : s.regs.phase = .run) :
    exec .eos s = .next (s.withRegs (s.regs.raiseTerminal .incomplete)) := by
  rw [exec_eq, commandRegs_eos, Registers.endOfSource_of_run hp]

/-- EOS from any phase (R83). -/
theorem exec_eos (s : State) : exec .eos s =
    .next (if s.regs.phase = .run then s.withRegs (s.regs.raiseTerminal .incomplete) else s) := by
  split
  case isTrue hp => exact exec_eos_of_run hp
  case isFalse hp => exact exec_of_not_run hp nofun

/-- BYTE_EOS is EOS on the state that BYTE leaves (R84). -/
theorem exec_byteEos_of_byte (h : exec (.byte d) s = .next u) : exec (.byteEos d) s = exec .eos u := by
  obtain rfl := exec_next_iff.1 h
  rfl

/-- A second START leaves the state of the first (R81). -/
theorem exec_start_idem (h : exec .start s = .next u) : exec .start u = .next u := by
  obtain rfl := exec_next_iff.1 h
  rfl

end Exec

/-! ## When the block is not ready for a byte -/

section NotReady

variable {r : Registers} {b : Bool} {p : Ports}

theorem inReady_of_start (h : b = true) : inReady r b = false := by simp [inReady, h]

theorem inReady_of_not_run (h : r.phase ≠ .run) : inReady r b = false := by simp [inReady, h]

/-- A byte is consumed only while `in_ready_o = 1` (spec/20_memory.md R41). -/
theorem consumes_of_not_inReady (h : inReady r p.startI = false) : consumes r p = false := by
  simp [consumes, h]

end NotReady

/-! ## One scheduled sample -/

/-- A step runs the command that the levels of the next scheduled sample stand for. -/
theorem step_levels {s : State} {p : Ports} {ps : List Ports} (h : s.inputs = p :: ps) (hr : p.rst = false)
    (hl : s.regs.Legal) :
    step s = exec (commandOf p.startI p.inEosI p.inValidI p.inDataI) { s with inputs := ps } := by
  rw [step_of_cons h, edge_of_legal (s := { s with inputs := ps }) hr hl, decodeWord_ports]

/-! ## The obligations -/

/-- Settles O11: each row's levels name one command, and outside RUN all commands but START act alike. -/
theorem oneEdgeTable : Obligations.OneEdgeTable := by
  intro s p ps h hr hl
  rw [step_levels h hr hl]
  refine ⟨fun hs => ?start, fun hs hp => ?outsideRun, fun hs _ he hv => ?nop, fun hs _ he hv => ?byte,
    fun hs hp he hv => ?eos, fun hs _ he hv => ?byteEos⟩
  case start => rw [hs, commandOf_start, exec_eq]; rfl
  case outsideRun => rw [hs]; exact exec_of_not_run hp (commandOf_ne_start _ _ _)
  case nop => rw [hs, he, hv, commandOf_nop, exec_eq]; rfl
  case byte => rw [hs, he, hv, commandOf_byte]
  case eos => rw [hs, he, hv, commandOf_eos]; exact exec_eos_of_run hp
  case byteEos =>
    have hbyte := exec_eq (.byte p.inDataI) { s with inputs := ps }
    refine ⟨_, hbyte, ?_⟩
    rw [hs, he, hv, commandOf_byteEos, exec_byteEos_of_byte hbyte]
    exact exec_eos _

/-- Settles O22: each NOP keeps the registers, so a run of them only uses up the schedule. -/
theorem nopChangesNothing : Obligations.NopChangesNothing := by
  refine ⟨fun w => decodeWord_of_selector, fun s => rfl, fun s ps rest hp h hnop => ?_⟩
  refine run_of_registers_kept (Registers.legal_of_run hp) h fun q hq => ?_
  obtain ⟨hr, hq⟩ := hnop q hq
  exact ⟨hr, by rw [hq, commandRegs_nop]⟩

/-- Settles O23: START writes the fresh registers whatever stood there, and the block is not ready while it is held. -/
theorem startBeginsAFreshAttempt : Obligations.StartBeginsAFreshAttempt :=
  ⟨fun _ => decodeWord_eq_start_iff.2, fun s => exec_eq .start s, fun _ => ⟨rfl, rfl, rfl⟩,
    fun _ _ hs => ⟨consumes_of_not_inReady (inReady_of_start hs), inReady_of_start hs⟩,
    fun _ _ => exec_start_idem⟩

/-- Settles O24, by the phase. -/
theorem eosEndsARunningAttempt : Obligations.EosEndsARunningAttempt :=
  ⟨fun _ => decodeWord_of_selector, fun _ => ⟨exec_eos_of_run, fun hp => exec_of_not_run hp nofun⟩⟩

/-- Settles O25: BYTE_EOS is EOS on what BYTE leaves, by the phase that BYTE leaves. -/
theorem byteEosIsByteThenEos : Obligations.ByteEosIsByteThenEos := by
  refine ⟨fun w => decodeWord_of_selector, fun d s => ⟨fun _ => ?_, fun hp => exec_of_not_run hp nofun⟩⟩
  have hbyte := exec_eq (.byte d) s
  have heos := exec_byteEos_of_byte hbyte
  exact ⟨_, hbyte, fun hu => heos.trans (exec_eos_of_run hu), fun hu => heos.trans (exec_of_not_run hu nofun)⟩

/-- Settles O26: IDLE and DONE are not RUN. -/
theorem onlyStartActsOutsideRun : Obligations.OnlyStartActsOutsideRun := by
  intro s d hphase
  have hp : s.regs.phase ≠ .run := by
    rcases hphase with h | h <;> simp [h]
  exact ⟨exec_of_not_run hp nofun, exec_of_not_run hp nofun, exec_of_not_run hp nofun, exec_of_not_run hp nofun,
    fun _ => consumes_of_not_inReady (inReady_of_not_run hp), fun _ => inReady_of_not_run hp⟩

end Sys2Proof.Machine

/-! SUPPORT. The byte at each frame position, as BYTE and as BYTE_EOS (spec/41_frame_positions.md). -/

namespace Sys2Proof.Machine

/-! ## BYTE and BYTE_EOS in RUN, by the phase that the consumed byte leaves -/

section ConsumedByte

variable {d : Byte} {s : State} {r : Registers}

theorem exec_byte_of_consume (hp : s.regs.phase = .run) (hc : consume d s.regs = r) :
    exec (.byte d) s = .next (s.withRegs r) := by
  rw [exec_eq, commandRegs_byte, offer_of_run d hp, hc]

/-- The attempt still runs after the byte, so the end of the source makes it INCOMPLETE (R84). -/
theorem exec_of_consume_running (hp : s.regs.phase = .run) (hc : consume d s.regs = r) (hr : r.phase = .run) :
    exec (.byte d) s = .next (s.withRegs r) ∧
    exec (.byteEos d) s = .next (s.withRegs (r.raiseTerminal .incomplete)) := by
  have hbyte := exec_byte_of_consume hp hc
  exact ⟨hbyte, (exec_byteEos_of_byte hbyte).trans (exec_eos_of_run hr)⟩

/-- The byte ends the attempt, so the end of the source adds nothing (R84). -/
theorem exec_of_consume_done (hp : s.regs.phase = .run) (hc : consume d s.regs = r) (hr : r.phase = .done) :
    exec (.byte d) s = .next (s.withRegs r) ∧ exec (.byteEos d) s = .next (s.withRegs r) := by
  have hbyte := exec_byte_of_consume hp hc
  exact ⟨hbyte, (exec_byteEos_of_byte hbyte).trans (exec_of_not_run (by simp [hr]) nofun)⟩

end ConsumedByte

/-! ## The positions that compare the byte with an expected value -/

section Expected

variable {d a : Byte} {r : Registers}

theorem Registers.locked_iff : r.locked = true ↔ r.phase = .run ∧ 1 ≤ r.bytesReceived := by
  simp [Registers.locked, BitVec.le_def]

theorem syncFail_iff : syncFail r d = true ↔ r.bytesReceived = 0 ∧ d ≠ 0x02 := by simp [syncFail, sofMatch]

theorem position0_of_sof (hd : d = 0x02) : position0 d r = { r with bytesReceived := 1, acc := 0 } :=
  if_pos (beq_iff_eq.2 hd)

theorem Registers.acceptChecksum_of_right (hd : d = r.acc ^^^ 0xFF) :
    r.acceptChecksum d = { r with bytesReceived := 8, phase := .done, result := .ok } := by
  rw [Registers.acceptChecksum, if_pos hd]; rfl

theorem Registers.acceptChecksum_of_wrong (hd : d ≠ r.acc ^^^ 0xFF) :
    r.acceptChecksum d = { r with bytesReceived := 8, phase := .done, result := .checksumMismatch } := by
  rw [Registers.acceptChecksum, if_neg hd]; rfl

/-- A byte is the expected checksum of the accumulator exactly when the accumulator is the byte's complement. -/
theorem eq_xor_complement_comm : d = a ^^^ 0xFF ↔ a = d ^^^ 0xFF := by
  constructor <;> rintro rfl <;> simp

/-- The invariant keeps a running attempt at the counts 0 to 7. -/
theorem Registers.Inv.not_of_run_of_eight_le (hp : r.phase = .run) (h8 : 8 ≤ r.bytesReceived) : ¬ r.Inv := by
  intro hi
  obtain ⟨-, h7⟩ := hi.run_ok hp
  bv_omega

end Expected

/-! ## The obligations -/

/-- Settles O28: the byte is the start marker, or the synchroniser fails. -/
theorem positionZeroTakesTheStartMarker : Obligations.PositionZeroTakesTheStartMarker := by
  refine ⟨fun r => Registers.locked_iff, fun d s hp hn => ⟨fun hd => ?sof, fun hd => ?other, fun hi => ?acc⟩⟩
  case sof => exact exec_of_consume_running hp ((consume_at_zero hn).trans (position0_of_sof hd)) hp
  case other => exact exec_of_consume_done hp (consume_of_syncFail (syncFail_iff.2 ⟨hn, hd⟩)) rfl
  case acc => exact hi.acc_start (by simp [hn])

/-- Settles O29, by whether the byte is the type marker. -/
theorem positionOneTakesTheTypeMarker : Obligations.PositionOneTakesTheTypeMarker := by
  intro d s hp hn
  have hc := consume_at_one (d := d) hn
  exact ⟨fun hd => exec_of_consume_running hp (hc.trans (if_pos hd)) hp,
    fun hd => exec_of_consume_done hp (hc.trans (if_neg hd)) rfl⟩

/-- Settles O30, by whether the byte is the size marker; under the invariant `acc` holds the type marker. -/
theorem positionTwoTakesTheSizeMarker : Obligations.PositionTwoTakesTheSizeMarker := by
  intro d s hp hn
  have hc := consume_at_two (d := d) hn
  refine ⟨fun hd => ?size, fun hd => exec_of_consume_done hp (hc.trans (if_neg hd)) rfl⟩
  obtain ⟨hbyte, hbyteEos⟩ := exec_of_consume_running hp (hc.trans (if_pos hd)) hp
  exact ⟨hbyte, hbyteEos, fun hi => by rw [hi.acc_marker hn, hd]; rfl⟩

/-- Settles O31: position 3 has no condition on the byte. -/
theorem positionThreeCapturesStatus : Obligations.PositionThreeCapturesStatus :=
  fun _ _ hp hn => exec_of_consume_running hp (consume_at_three hn) hp

/-- Settles O32: position 4 has no condition on the byte. -/
theorem positionFourCapturesMinutes : Obligations.PositionFourCapturesMinutes :=
  fun _ _ hp hn => exec_of_consume_running hp (consume_at_four hn) hp

/-- Settles O33: position 5 has no condition on the byte. -/
theorem positionFiveCapturesTheInteger : Obligations.PositionFiveCapturesTheInteger :=
  fun _ _ hp hn => exec_of_consume_running hp (consume_at_five hn) hp

/-- Settles O34: position 6 has no condition on the byte. -/
theorem positionSixCapturesTheFraction : Obligations.PositionSixCapturesTheFraction :=
  fun _ _ hp hn => exec_of_consume_running hp (consume_at_six hn) hp

/-- Settles O35: either comparison ends the attempt, so BYTE_EOS adds nothing to BYTE. -/
theorem positionSevenChecksTheChecksum : Obligations.PositionSevenChecksTheChecksum := by
  intro d s hp hn
  have hc := consume_of_count_seven (d := d) hn
  refine ⟨fun hd => ?right, fun hd => ?wrong, fun hd => ?zero, fun hd => ?ones⟩
  case right =>
    obtain ⟨hbyte, hbyteEos⟩ := exec_of_consume_done hp (hc.trans (Registers.acceptChecksum_of_right hd)) rfl
    exact ⟨hbyte, hbyteEos, fun b => outputs_of_reading b rfl⟩
  case wrong => exact exec_of_consume_done hp (hc.trans (Registers.acceptChecksum_of_wrong hd)) rfl
  case zero => rw [eq_xor_complement_comm, hd]; rfl
  case ones => rw [eq_xor_complement_comm, hd]; rfl

/-- Settles O36: the byte is MALFORMED, and the invariant has no running attempt with such a count. -/
theorem otherCountsAreMalformed : Obligations.OtherCountsAreMalformed := by
  intro d s hp h8
  obtain ⟨hbyte, hbyteEos⟩ := exec_of_consume_done (d := d) hp (consume_at_other (BitVec.le_def.1 h8)) rfl
  exact ⟨hbyte, hbyteEos, Registers.Inv.not_of_run_of_eight_le hp h8⟩

end Sys2Proof.Machine

/-! SUPPORT. The checksum validator: who writes the accumulator, the forms of the expected checksum, and what a changed
byte does to a frame (spec/42_checksum_validator.md). -/

namespace Sys2Proof

/-- A command's canonical word decodes to the command (R68). -/
@[simp] theorem decodeWord_encode (i : Instr) : decodeWord (encode i) = i := by
  rw [encode_eq_packWord]
  cases i <;> simp [decodeWord_packWord]

end Sys2Proof

namespace Sys2Proof.Machine

/-! ## The accumulator -/

section Accumulator

variable {d : Byte} {r : Registers} {s t : State}

/-- A consumed byte clears `acc` or is added to it if it is accepted; the checksum byte and a rejected byte leave `acc`
as it is (R121, R122). -/
theorem consume_acc (d : Byte) (r : Registers) :
    (consume d r).acc = if r.Accepts d then (if r.bytesReceived = 0 then 0 else r.acc + d) else r.acc := by
  obtain ⟨ha, e⟩ | ⟨h7, e⟩ | ⟨hn, e⟩ := consume_trichotomy d r
  · rw [e, if_pos ha]; rfl
  · rw [e, if_neg fun ha => ha.count_ne_seven h7, Registers.acceptChecksum_acc]
  · rw [e, if_neg fun ha => hn (.inl ha), Registers.raiseTerminal_acc]

theorem acc_of_offered (h : exec (.byte d) s = .next t ∨ exec (.byteEos d) s = .next t) :
    t.regs.acc = (offer d s.regs).acc := by
  rcases regs_of_offered h with e | e <;> simp [e]

end Accumulator

/-! ## Commands in sequence -/

section Sequence

variable {s : State} {rest : List Ports}

/-- The registers after the given commands, one an edge. -/
def commandsRegs (is : List Instr) (r : Registers) : Registers := is.foldl (fun r i => commandRegs i r) r

@[simp] theorem commandsRegs_nil (r : Registers) : commandsRegs [] r = r := rfl
@[simp] theorem commandsRegs_cons (i : Instr) (is : List Instr) (r : Registers) :
    commandsRegs (i :: is) r = commandsRegs is (commandRegs i r) := rfl

theorem commandsRegs_append (is js : List Instr) (r : Registers) :
    commandsRegs (is ++ js) r = commandsRegs js (commandsRegs is r) := List.foldl_append

/-- Commands scheduled one an edge write the registers one after the other; the history invariant keeps each edge clear
of the faults. -/
theorem run_commands {is : List Instr} {h : List Byte} (hi : HistoryInv s.regs h)
    (hin : s.inputs = commandPorts is ++ rest) :
    Host.Core.run core is.length s = .next { s with inputs := rest, regs := commandsRegs is s.regs } := by
  induction is generalizing s h with
  | nil =>
    obtain rfl : s.inputs = rest := hin
    rfl
  | cons i is ih =>
    have hstep := step_command hin hi.legal
    rw [decodeWord_encode] at hstep
    rw [List.length_cons, run_succ _ hstep]
    exact ih (hi.command i) rfl

/-- A whole attempt: START leaves nothing of the registers before it (R81), then the bytes are offered in turn. -/
theorem run_attempt {bs : List Byte} (hl : s.regs.Legal) (hin : s.inputs = commandPorts (attemptCommands bs) ++ rest) :
    Host.Core.run core (bs.length + 1) s =
      .next { s with inputs := rest, regs := commandsRegs (byteCommands bs) Registers.fresh } := by
  have hstep := step_command hin hl
  rw [decodeWord_encode] at hstep
  rw [run_succ _ hstep, ← List.length_map (f := Instr.byte)]
  exact run_commands HistoryInv.fresh rfl

end Sequence

/-! ## Bytes offered in sequence -/

section Bytes

variable {d : Byte} {r : Registers} (bs : List Byte)

/-- Outside RUN no byte of a sequence is consumed (R86). -/
theorem commandsRegs_bytes_of_not_run (hp : r.phase ≠ .run) : commandsRegs (byteCommands bs) r = r := by
  induction bs with
  | nil => rfl
  | cons b bs ih =>
    rw [byteCommands, List.map_cons, commandsRegs_cons, commandRegs_byte, offer_of_not_run b hp]
    exact ih

theorem commandsRegs_bytes_of_accepts (hp : r.phase = .run) (ha : r.Accepts d) :
    commandsRegs (byteCommands (d :: bs)) r = commandsRegs (byteCommands bs) (r.accept d) := by
  rw [byteCommands, List.map_cons, commandsRegs_cons, commandRegs_byte, offer_of_run d hp, consume_of_accepts ha]
  rfl

/-- The first rejected byte decides the attempt, whatever follows it. -/
theorem commandsRegs_bytes_of_rejected (hp : r.phase = .run) (hn : ¬ (r.Accepts d ∨ r.bytesReceived = 7)) :
    commandsRegs (byteCommands (d :: bs)) r = r.raiseTerminal .malformed := by
  rw [byteCommands, List.map_cons, commandsRegs_cons, commandRegs_byte, offer_of_run d hp, consume_of_rejected hn]
  exact commandsRegs_bytes_of_not_run bs (by simp)

/-- A wrong marker among the first three bytes makes the attempt MALFORMED, whatever follows (R100 to R102). -/
theorem commandsRegs_of_wrong_marker {b0 b1 b2 : Byte} (h : ¬ (b0 = 0x02 ∧ b1 = 0x10 ∧ b2 = 0x04)) :
    ∃ r : Registers,
      commandsRegs (byteCommands (b0 :: b1 :: b2 :: bs)) Registers.fresh = r.raiseTerminal .malformed := by
  by_cases h0 : b0 = 0x02
  · rw [commandsRegs_bytes_of_accepts _ rfl (.inl ⟨rfl, h0⟩)]
    by_cases h1 : b1 = 0x10
    · rw [commandsRegs_bytes_of_accepts _ rfl (.inr (.inl ⟨rfl, h1⟩))]
      have h2 : b2 ≠ 0x04 := fun h2 => h ⟨h0, h1, h2⟩
      exact ⟨_, commandsRegs_bytes_of_rejected _ rfl (by simpa [Registers.Accepts] using h2)⟩
    · exact ⟨_, commandsRegs_bytes_of_rejected _ rfl (by simpa [Registers.Accepts] using h1)⟩
  · exact ⟨_, commandsRegs_bytes_of_rejected _ rfl (by simpa [Registers.Accepts] using h0)⟩

/-- A frame with the right markers reaches its eighth byte with the sum of bytes 1 to 6 in `acc`, and the checksum
decides the attempt (R107, R124). -/
theorem commandsRegs_of_markers (b3 b4 b5 b6 b7 : Byte) :
    commandsRegs (byteCommands [0x02, 0x10, 0x04, b3, b4, b5, b6, b7]) Registers.fresh =
      Registers.acceptChecksum b7 ⟨.run, 7, byteSum [0x10, 0x04, b3, b4, b5, b6], b3, b4, b5, b6, .ok⟩ := by
  have h7 : commandsRegs (byteCommands [0x02, 0x10, 0x04, b3, b4, b5, b6]) Registers.fresh =
      ⟨.run, 7, byteSum [0x10, 0x04, b3, b4, b5, b6], b3, b4, b5, b6, .ok⟩ := rfl
  calc commandsRegs (byteCommands [0x02, 0x10, 0x04, b3, b4, b5, b6, b7]) Registers.fresh
    _ = commandsRegs [.byte b7] (commandsRegs (byteCommands [0x02, 0x10, 0x04, b3, b4, b5, b6]) Registers.fresh) :=
      commandsRegs_append (byteCommands [0x02, 0x10, 0x04, b3, b4, b5, b6]) [.byte b7] _
    _ = _ := by
      rw [h7, commandsRegs_cons, commandsRegs_nil, commandRegs_byte, offer_of_run b7 rfl, consume_of_count_seven rfl]

end Bytes

/-! ## Sums of byte strings with a changed byte -/

section Changed

variable {xs : List Byte}

/-- A changed byte changes the sum by the difference (R127). -/
theorem byteSum_set {k : Nat} (x : Byte) (hk : k < xs.length) :
    byteSum (xs.set k x) = byteSum xs + (x - xs.getD k 0) := by
  induction xs generalizing k with
  | nil => exact absurd hk (Nat.not_lt_zero k)
  | cons y ys ih =>
    cases k with
    | zero =>
      rw [List.set_cons_zero, byteSum_cons, byteSum_cons, List.getD_cons_zero]
      bv_omega
    | succ k =>
      rw [List.set_cons_succ, byteSum_cons, byteSum_cons, List.getD_cons_succ, ih (Nat.lt_of_succ_lt_succ hk),
        BitVec.add_assoc]

/-- A byte is the checksum of a string exactly when it brings the string's sum to FF. -/
theorem eq_ck_iff (d : Byte) (xs : List Byte) : d = ck xs ↔ byteSum (xs ++ [d]) = 0xFF := by
  rw [ck_eq_sub, byteSum_append, accNext_add]
  bv_omega

/-- A change of one byte by a nonzero difference changes the sum. -/
theorem byteSum_set_ne {k : Nat} {x : Byte} (hk : k < xs.length) (hx : x ≠ xs.getD k 0) :
    byteSum (xs.set k x) ≠ byteSum xs := by
  rw [byteSum_set x hk]
  bv_omega

/-- Two changes whose differences sum to 0 keep the sum. -/
theorem byteSum_set_set {j k : Nat} (e : Byte) (hjk : j < k) (hk : k < xs.length) :
    byteSum ((xs.set j (xs.getD j 0 + e)).set k (xs.getD k 0 - e)) = byteSum xs := by
  have hget : (xs.set j (xs.getD j 0 + e)).getD k 0 = xs.getD k 0 := by
    rw [List.getD_eq_getElem?_getD, List.getElem?_set_ne hjk.ne, List.getD_eq_getElem?_getD]
  rw [byteSum_set _ (by rwa [List.length_set]), hget, byteSum_set _ (hjk.trans hk)]
  bv_omega

end Changed

/-! ## Whole attempts over eight bytes -/

section Attempts

variable {s : State} {rest : List Ports} {body : List Byte}

/-- An attempt over eight bytes of which one of the first three is a wrong marker. -/
theorem attempt_of_wrong_marker {b0 b1 b2 : Byte} (hl : s.regs.Legal) (hlen : body.length = 5)
    (hmark : ¬ (b0 = 0x02 ∧ b1 = 0x10 ∧ b2 = 0x04))
    (hin : s.inputs = commandPorts (attemptCommands (b0 :: b1 :: b2 :: body)) ++ rest) :
    ∃ t, Host.Core.run core 9 s = .next t ∧ t.regs.phase = .done ∧ t.regs.result = .malformed := by
  obtain ⟨r, hr⟩ := commandsRegs_of_wrong_marker body hmark
  have hrun := run_attempt hl hin
  simp only [List.length_cons, hlen, hr] at hrun
  exact ⟨_, hrun, rfl, rfl⟩

/-- An attempt over eight bytes with the right markers: the sum of the bytes from position 1 on, the checksum byte
among them, decides it (R107, R124). -/
theorem attempt_of_markers (hl : s.regs.Legal) (hlen : body.length = 5)
    (hin : s.inputs = commandPorts (attemptCommands (0x02 :: 0x10 :: 0x04 :: body)) ++ rest) :
    ∃ t, Host.Core.run core 9 s = .next t ∧ t.regs.phase = .done ∧
      t.regs.result = if byteSum (0x10 :: 0x04 :: body) = 0xFF then .ok else .checksumMismatch := by
  match body, hlen with
  | [b3, b4, b5, b6, b7], _ =>
    have hrun := run_attempt hl hin
    rw [commandsRegs_of_markers] at hrun
    exact ⟨_, hrun, rfl, if_congr (eq_ck_iff b7 [0x10, 0x04, b3, b4, b5, b6]) rfl rfl⟩

end Attempts

/-! ## The obligations -/

/-- Settles O38, by whether the byte is consumed and accepted; the end of the source writes no `acc`. -/
theorem accumulatorClearedAddedOrHeld : Obligations.AccumulatorClearedAddedOrHeld := by
  refine ⟨fun s t hr h => ?reset, fun s t h => ?start, fun s t h => ?nopOrEos, fun d s t h => ?offered⟩
  case reset => rw [step_regs h, if_pos hr, Registers.reset_acc]
  case start => rw [regs_of_start h, Registers.fresh_acc]
  case nopOrEos => rcases regs_of_nop_or_eos h with e | e <;> simp [e]
  case offered =>
    rw [acc_of_offered h]
    refine ⟨fun hp hn hd => ?clear, fun hp hn ha => ?add, fun hheld => ?hold⟩
    case clear => rw [offer_of_run d hp, consume_acc, if_pos (.inl ⟨hn, hd⟩), if_pos hn]
    case add =>
      have hn0 : s.regs.bytesReceived ≠ 0 := by bv_omega
      rw [offer_of_run d hp, consume_acc, if_pos ha, if_neg hn0]
    case hold =>
      by_cases hp : s.regs.phase = .run
      · rw [offer_of_run d hp, consume_acc, if_neg (hheld.resolve_left (not_not_intro hp))]
      · rw [offer_of_not_run d hp]

/-- Settles O53: byte `k` of the frame is byte `k - 1` of those that the sum runs over, and a correct frame's sum is
FF. -/
theorem oneByteChangesAreCaught : Obligations.OneByteChangesAreCaught := by
  intro s b3 b4 b5 b6 f rest hl hf
  obtain ⟨body, hbody⟩ : ∃ body, body = [b3, b4, b5, b6, ck [0x10, 0x04, b3, b4, b5, b6]] := ⟨_, rfl⟩
  have hlen : body.length = 5 := by rw [hbody]; rfl
  have hsum : byteSum (0x10 :: 0x04 :: body) = 0xFF := by
    rw [hbody]
    exact (eq_ck_iff _ [0x10, 0x04, b3, b4, b5, b6]).1 rfl
  obtain rfl : f = 0x02 :: 0x10 :: 0x04 :: body := by rw [hf, hbody]
  have htail : (0x10 :: 0x04 :: body).length = 7 := congrArg (· + 2) hlen
  refine ⟨fun k x h3 h7 hx hin => ?one, fun k x h2 hx hin => ?marker, fun j k e h3 hjk h7 hin => ?two⟩
  case one =>
    obtain ⟨k, rfl⟩ := Nat.exists_eq_add_of_le' h3
    have hne := byteSum_set_ne (k := k + 2) (by omega) hx
    obtain ⟨t, hrun, hdone, hres⟩ := attempt_of_markers hl (by rw [List.length_set, hlen]) hin
    exact ⟨t, hrun, hdone, hres.trans (if_neg (hsum ▸ hne))⟩
  case marker =>
    match k, h2 with
    | 0, _ => exact attempt_of_wrong_marker hl hlen (fun h => hx h.1) hin
    | 1, _ => exact attempt_of_wrong_marker hl hlen (fun h => hx h.2.1) hin
    | 2, _ => exact attempt_of_wrong_marker hl hlen (fun h => hx h.2.2) hin
  case two =>
    obtain ⟨j, rfl⟩ := Nat.exists_eq_add_of_le' h3
    obtain ⟨k, rfl⟩ := Nat.exists_eq_add_of_le' (h3.trans hjk.le)
    have hkeep := byteSum_set_set (xs := 0x10 :: 0x04 :: body) (j := j + 2) (k := k + 2) e (by omega) (by omega)
    obtain ⟨t, hrun, hdone, hres⟩ := attempt_of_markers hl (by rw [List.length_set, List.length_set, hlen]) hin
    exact ⟨t, hrun, hdone, hres.trans (if_pos (hkeep.trans hsum))⟩

/-- Settles O50: the XOR is the subtraction and the complement, and the masks with FF keep every bit. -/
theorem expectedChecksumForms : Obligations.ExpectedChecksumForms := by
  intro a
  have hsub : ckExpected a = 0xFF - a := xor_complement_eq_sub a
  refine ⟨rfl, hsub, ?masked, BitVec.xor_allOnes⟩
  calc ckExpected a
    _ = 0xFF - a := hsub
    _ = 0xFF - (a &&& 0xFF) := by rw [show a &&& 0xFF = a from BitVec.and_allOnes]
    _ = (0xFF - (a &&& 0xFF)) &&& 0xFF := BitVec.and_allOnes.symm

end Sys2Proof.Machine

/-! SUPPORT. The status byte's class and its code (spec/43_status_decoder.md). -/

namespace Sys2Proof.Machine

/-! ## The class and its code -/

/-- A byte that is none of the five recognised ones is `Unknown` of itself (R135). -/
theorem classify_of_unrecognised {b : Byte} (h00 : b ≠ 0x00) (h01 : b ≠ 0x01) (h02 : b ≠ 0x02) (h10 : b ≠ 0x10)
    (hE0 : b ≠ 0xE0) : classify b = .unknown b := by
  rw [classify, if_neg h00, if_neg h01, if_neg h02, if_neg h10, if_neg hE0]

/-- Six categories, so the 3-bit code leaves 6 and 7 unused (R63). -/
theorem StatusClass.code_le_five (c : StatusClass) : c.code ≤ 5 := by
  cases c with
  | unknown => exact BitVec.le_refl 5
  | _ => decide

/-! ## The obligation -/

/-- Settles O48: the five recognised bytes by evaluation, every other byte by its class, and 6 and 7 by the bound on
the codes. -/
theorem statusClassOfEveryByte : Obligations.StatusClassOfEveryByte := by
  refine ⟨rfl, rfl, rfl, rfl, rfl, fun b h00 h01 h02 h10 hE0 => ?unrecognised, fun b => ?unused⟩
  case unrecognised => exact congrArg StatusClass.code (classify_of_unrecognised h00 h01 h02 h10 hE0)
  case unused =>
    have hle : mapStatus b ≤ 5 := (classify b).code_le_five
    constructor <;> bv_omega

end Sys2Proof.Machine

/-! SUPPORT. The terminal entry, what causes it, and that an outcome stays until START or reset
(spec/60_exceptions.md). -/

namespace Sys2Proof.Machine

/-! ## What ends a running attempt -/

section Cause

variable {i : Instr} {d : Byte} {r : Registers} {s t : State} {c : Result}

/-- The cause that ends a running attempt with the given outcome: the table of R150. -/
def Cause (i : Instr) (r : Registers) : Result → Prop
  | .ok => ∃ d, (i = .byte d ∨ i = .byteEos d) ∧ r.bytesReceived = 7 ∧ d = r.acc ^^^ 0xFF
  | .incomplete => i = .eos ∨ ∃ d, i = .byteEos d ∧ r.Accepts d
  | .malformed => ∃ d, (i = .byte d ∨ i = .byteEos d) ∧ ¬ r.Accepts d ∧ r.bytesReceived ≠ 7
  | .checksumMismatch => ∃ d, (i = .byte d ∨ i = .byteEos d) ∧ r.bytesReceived = 7 ∧ d ≠ r.acc ^^^ 0xFF

/-- A byte that ends the attempt decides it alone: BYTE_EOS is then BYTE (R84). -/
theorem commandRegs_of_consume_done (hi : i = .byte d ∨ i = .byteEos d) (hp : r.phase = .run)
    (hd : (consume d r).phase = .done) : commandRegs i r = consume d r := by
  rcases hi with rfl | rfl
  · rw [commandRegs_byte, offer_of_run d hp]
  · rw [commandRegs_byteEos, offer_of_run d hp, Registers.endOfSource_of_not_run (by simp [hd])]

theorem commandRegs_of_count_seven (hi : i = .byte d ∨ i = .byteEos d) (hp : r.phase = .run)
    (h7 : r.bytesReceived = 7) : commandRegs i r = r.acceptChecksum d := by
  have hc := consume_of_count_seven (d := d) h7
  rw [commandRegs_of_consume_done hi hp (by rw [hc, Registers.acceptChecksum_phase]), hc]

theorem commandRegs_of_rejected (hi : i = .byte d ∨ i = .byteEos d) (hp : r.phase = .run)
    (hn : ¬ (r.Accepts d ∨ r.bytesReceived = 7)) : commandRegs i r = r.raiseTerminal .malformed := by
  have hc := consume_of_rejected hn
  rw [commandRegs_of_consume_done hi hp (by rw [hc, Registers.raiseTerminal_phase]), hc]

/-- An accepted byte leaves the attempt running (R100 to R106). -/
theorem offer_phase_of_accepts (hp : r.phase = .run) (ha : r.Accepts d) : (offer d r).phase = .run := by
  rw [offer_of_run d hp, consume_of_accepts ha, Registers.accept_phase, hp]

/-- Each cause brings its outcome about. -/
theorem result_of_cause (hp : r.phase = .run) (hc : Cause i r c) : (commandRegs i r).result = c := by
  cases c with
  | ok =>
    obtain ⟨d, hi, h7, hd⟩ := hc
    rw [commandRegs_of_count_seven hi hp h7, Registers.acceptChecksum_result, if_pos hd]
  | incomplete =>
    obtain rfl | ⟨d, rfl, ha⟩ := hc
    · rw [commandRegs_eos, Registers.endOfSource_of_run hp, Registers.raiseTerminal_result]
    · rw [commandRegs_byteEos, Registers.endOfSource_of_run (offer_phase_of_accepts hp ha),
        Registers.raiseTerminal_result]
  | malformed =>
    obtain ⟨d, hi, hn⟩ := hc
    rw [commandRegs_of_rejected hi hp (not_or.2 hn), Registers.raiseTerminal_result]
  | checksumMismatch =>
    obtain ⟨d, hi, h7, hd⟩ := hc
    rw [commandRegs_of_count_seven hi hp h7, Registers.acceptChecksum_result, if_neg hd]

/-- A consumed byte that is not accepted at positions 0 to 6 is a cause, by its position and its value. -/
theorem exists_cause_of_not_accepts (hi : i = .byte d ∨ i = .byteEos d) (ha : ¬ r.Accepts d) :
    ∃ c, Cause i r c := by
  by_cases h7 : r.bytesReceived = 7
  · by_cases hd : d = r.acc ^^^ 0xFF
    · exact ⟨.ok, d, hi, h7, hd⟩
    · exact ⟨.checksumMismatch, d, hi, h7, hd⟩
  · exact ⟨.malformed, d, hi, ha, h7⟩

/-- No command ends a running attempt without one of the causes. -/
theorem exists_cause (hp : r.phase = .run) (hd : (commandRegs i r).phase = .done) : ∃ c, Cause i r c := by
  cases i with
  | nop => simp [hp] at hd
  | byte d =>
    by_cases ha : r.Accepts d
    · simp [offer_phase_of_accepts hp ha] at hd
    · exact exists_cause_of_not_accepts (.inl rfl) ha
  | eos => exact ⟨.incomplete, .inl rfl⟩
  | byteEos d =>
    by_cases ha : r.Accepts d
    · exact ⟨.incomplete, .inr ⟨d, rfl, ha⟩⟩
    · exact exists_cause_of_not_accepts (.inr rfl) ha
  | start => simp at hd

/-- An ended attempt has the outcome of its cause, so the causes do not overlap (R150). -/
theorem result_eq_iff_cause (hp : s.regs.phase = .run) (h : exec i s = .next t) (hd : t.regs.phase = .done) :
    t.regs.result = c ↔ Cause i s.regs c := by
  obtain rfl := exec_next_iff.1 h
  refine ⟨?_, result_of_cause hp⟩
  obtain ⟨c', hc'⟩ := exists_cause hp hd
  rintro rfl
  rwa [State.withRegs_regs, result_of_cause hp hc']

end Cause

/-! ## The obligations -/

/-- Settles O41: one of the four causes holds, and each brings its own outcome about. -/
theorem outcomeByCause : Obligations.OutcomeByCause := by
  refine ⟨fun i s t hp hi h => ?ended, fun s t h => ?start, fun s t hr h => ?reset, fun i s t hp h hd => ?cause⟩
  case ended =>
    rw [exec_of_not_run (by simp [hp]) hi] at h
    injection h with h
    exact h.symm
  case start => rw [regs_of_start h, Registers.fresh_phase]
  case reset => rw [step_regs h, if_pos hr, Registers.reset_phase]
  case cause =>
    exact ⟨result_eq_iff_cause hp h hd, result_eq_iff_cause hp h hd, result_eq_iff_cause hp h hd,
      result_eq_iff_cause hp h hd⟩

/-- Settles O27: none of the samples carries START, so outside RUN their commands keep the registers. -/
theorem outcomeHeldUntilStartOrReset : Obligations.OutcomeHeldUntilStartOrReset := by
  intro s ps rest hl hp hin hquiet
  refine run_of_registers_kept hl hin fun q hq => ?_
  obtain ⟨hr, hs⟩ := hquiet q hq
  refine ⟨hr, commandRegs_of_not_run hp ?_⟩
  rw [decodeWord_ports, hs]
  exact commandOf_ne_start _ _ _

/-- Settles O43, by the levels of `rst` and `start_i`. -/
theorem doneLeftOnlyByStartOrReset : Obligations.DoneLeftOnlyByStartOrReset := by
  refine fun s hl hp => ⟨step_of_rst, fun hr hs => ?start, step_outside_run hl (by simp [hp])⟩
  rw [step_of_legal hr hl, decodeWord_ports, hs, commandOf_start]
  exact exec_eq .start s.advance

/-- Settles O40: with OK the outputs are those of a presented Reading, and with any other code none is presented. -/
theorem terminalEntryWritesPhaseAndResult : Obligations.TerminalEntryWritesPhaseAndResult := by
  refine fun r code b => ⟨rfl, rfl, rfl, rfl, rfl, readingValid_raiseTerminal, fun hc => ?_⟩
  rw [outputs_of_reading b (readingValid_raiseTerminal.2 hc), hc]
  rfl

end Sys2Proof.Machine

/-! SUPPORT. Reset at one edge and over several (spec/70_reset_and_hazards.md). -/

namespace Sys2Proof.Machine

section Reset

variable {s : State} {r : Registers} {p : Ports} {ps rest : List Ports}

/-- A byte offered at a reset edge stays with its source (R180). -/
theorem consumes_of_rst (h : p.rst = true) : consumes r p = false := by simp [consumes, h]

/-- With the registers of reset `in_ready_o` is low at either level of `start_i`, and so is every other output (R180). -/
theorem outputs_reset (b : Bool) :
    outputs Registers.reset b = ⟨false, false, false, 0, 0, false, 0, 0, 0, 0, 0, 0⟩ := by
  rw [outputs_of_no_reading b rfl, inReady_of_not_run (by simp)]
  rfl

/-- One scheduled sample with reset, whatever the registers and the other levels. -/
theorem step_scheduled_rst (h : s.inputs = p :: ps) (hr : p.rst = true) :
    step s = .next { s with inputs := ps, regs := Registers.reset } := by
  rw [step_of_cons h, edge_of_rst hr]
  rfl

/-- One or more scheduled samples with reset, whatever the registers and the other levels (R181). -/
theorem run_of_rst_held (h : s.inputs = p :: ps ++ rest) (hr : ∀ q ∈ p :: ps, q.rst = true) :
    Host.Core.run Sys2Proof.core (p :: ps).length s = .next { s with inputs := rest, regs := Registers.reset } := by
  induction ps generalizing p s with
  | nil => exact run_succ 0 (step_scheduled_rst h (hr p List.mem_cons_self))
  | cons q qs ih =>
    obtain ⟨hp, hqs⟩ := List.forall_mem_cons.1 hr
    rw [List.length_cons, run_succ _ (step_scheduled_rst h hp)]
    exact ih rfl hqs

end Reset

/-! ## The obligations -/

/-- Settles O15, by induction on the samples: each reset edge writes the same registers and uses up its sample. -/
theorem resetHeldKeepsTheResetState : Obligations.ResetHeldKeepsTheResetState :=
  fun _ _ _ _ => run_of_rst_held

/-- Settles O14, by the edge, the outputs in the reset state and the byte on the ports. -/
theorem resetEdgeClearsEverything : Obligations.ResetEdgeClearsEverything :=
  fun _ hr => ⟨step_of_rst hr, outputs_reset, consumes_of_rst hr⟩

end Sys2Proof.Machine

/-! SUPPORT. Command words as bytes and numbers, and the canonical word of a decoded one (spec/30_encoding.md sections
1 and 5). -/

namespace Sys2Proof

/-! ## A command word laid out in two bytes -/

section Layout

variable (w : CommandWord) (rest : List Byte)

/-- `w[10:8]` leaves the upper five bits of the second byte zero. -/
theorem highByteFits_high : highByteFits ((w.extractLsb' 8 3).setWidth 8) = true := by
  have h := (w.extractLsb' 8 3).isLt
  rw [highByteFits, decide_eq_true_iff, BitVec.toNat_setWidth]
  omega

/-- A command word is put together again from its two bytes. -/
theorem setWidth_high_append_low : ((w.extractLsb' 8 3).setWidth 8 ++ w.extractLsb' 0 8).setWidth 11 = w := by
  refine BitVec.eq_of_getLsbD_eq fun i hi => ?_
  rw [BitVec.getLsbD_setWidth, BitVec.getLsbD_append]
  by_cases h8 : i < 8
  · simp [h8, hi]
  · simp [h8, hi, show i - 8 < 8 by omega, show i - 8 < 3 by omega, show 8 + (i - 8) = i by omega]

/-- The two bytes of a word decode as the word does, and what follows them is left over. -/
theorem decodeBytes_low_high :
    decodeBytes (w.extractLsb' 0 8 :: (w.extractLsb' 8 3).setWidth 8 :: rest) = .ok (decodeWord w, rest) := by
  rw [decodeBytes, if_pos (highByteFits_high w), setWidth_high_append_low]

theorem ofNat_toNat_low : BitVec.ofNat 8 w.toNat = w.extractLsb' 0 8 := by
  apply BitVec.eq_of_toNat_eq
  simp

theorem ofNat_toNat_high : BitVec.ofNat 8 (w.toNat / 256) = (w.extractLsb' 8 3).setWidth 8 := by
  have hw := w.isLt
  apply BitVec.eq_of_toNat_eq
  rw [BitVec.toNat_ofNat, BitVec.toNat_setWidth, BitVec.extractLsb'_toNat, Nat.shiftRight_eq_div_pow]
  omega

/-- A number of at least 11 bits that is a command word is read as that word. -/
theorem decodeTableWord_toNat {nbits : Nat} (hn : 11 ≤ nbits) :
    decodeTableWord nbits w.toNat = some (decodeWord w) := by
  have hlt : w.toNat < 2 ^ nbits := w.isLt.trans_le (Nat.pow_le_pow_right (by decide) hn)
  have hfit : commandWordFits w.toNat = true := decide_eq_true w.isLt
  simp only [decodeTableWord, Nat.mod_eq_of_lt hlt, hfit, if_true, ofNat_toNat_low, ofNat_toNat_high,
    decodeBytes_low_high]

end Layout

/-! ## The canonical word of a decoded command -/

section Canonical

variable (s e v : Bool) (d : Byte)

/-- The bits a command ignores are cleared: all but `S` under START, and the data byte where none is offered (R68). -/
theorem encode_commandOf : encode (commandOf s e v d) =
    if s then 0x400 else if v then packWord s e v d else packWord s e v 0 := by
  cases s with
  | true => rfl
  | false => cases e <;> cases v <;> exact encode_eq_packWord _

end Canonical

/-! ## The obligations -/

/-- Settles O1: the word, its two bytes and its number all decode as the word does, and the canonical word decodes to
its command. -/
theorem decodeOfEncodeIsTheCommand : Obligations.DecodeOfEncodeIsTheCommand := fun i rest =>
  have hword := decodeWord_encode i
  ⟨hword, by rw [encodeBytes, List.cons_append, List.cons_append, List.nil_append, decodeBytes_low_high, hword],
    by rw [decodeTableWord_toNat _ (by decide), hword]⟩

/-- Settles O2: a word is its four fields packed, and the mask 700 keeps all of them but the data byte. -/
theorem encodeOfDecodeClearsIgnoredBits : Obligations.EncodeOfDecodeClearsIgnoredBits := by
  intro w
  have hmask : w &&& 0x700 = packWord (fieldS w) (fieldE w) (fieldV w) 0 := by
    conv_lhs => rw [← packWord_fields w]
    exact packWord_and_selectorMask _ _ _ _
  rw [decodeWord, encode_commandOf, packWord_fields, hmask]
  rfl

/-- Settles O5, by evaluating the decoder on the eleven words. -/
theorem writtenOutWordsDecode : Obligations.WrittenOutWordsDecode := by
  unfold Obligations.WrittenOutWordsDecode
  decide

end Sys2Proof

namespace Sys2Proof.Machine

/-! ## The architectural state as 48 bits -/

section Codes

variable (p : Phase) (r : Result) (c : BitVec 2)

@[simp] theorem Phase.ofCode_code : Phase.ofCode p.code = p := by cases p <;> rfl
@[simp] theorem Phase.code_ofCode : (Phase.ofCode c).code = c := by revert c; decide
@[simp] theorem Result.ofCode_code : Result.ofCode r.code = r := by cases r <;> rfl
@[simp] theorem Result.code_ofCode : (Result.ofCode c).code = c := by revert c; decide

end Codes

/-- Every register is cut out of the packed tuple at its own place (R22). -/
theorem Registers.ofBits_toBits (r : Registers) : Registers.ofBits r.toBits = r := by
  simp (disch := decide) only [Registers.ofBits, Registers.toBits, BitVec.extractLsb'_append_eq_of_add_le,
    BitVec.extractLsb'_append_eq_of_le]
  simp

/-- The eight fields are adjacent and cover the 48 bits. -/
theorem Registers.toBits_ofBits (b : BitVec 48) : (Registers.ofBits b).toBits = b := by
  simp (disch := decide) only [Registers.ofBits, Registers.toBits, Phase.code_ofCode, Result.code_ofCode,
    BitVec.extractLsb'_append_extractLsb'_eq_extractLsb']
  exact BitVec.extractLsb'_eq_self

/-! ## The obligation -/

/-- Settles O7: the phase codes are R13's, and the packing and the unpacking undo each other field by field. -/
theorem registersAreFortyEightBits : Obligations.RegistersAreFortyEightBits :=
  ⟨⟨rfl, rfl, rfl, rfl⟩, Registers.ofBits_toBits, Registers.toBits_ofBits⟩

end Sys2Proof.Machine

/-! SUPPORT. The step around a command: the sample it takes, and the register values it faults on (spec/40_control.md
section 1, spec/93_implementation_defined.md section 1). -/

namespace Sys2Proof.Machine

/-! ## Register values no rule reaches -/

section Faults

variable {s : State} {r : Registers} {f : Fault}

theorem Registers.fault?_of_reserved (hp : r.phase = .reserved) : r.fault? = some .reservedPhase := by
  simp [Registers.fault?, hp]

theorem Registers.fault?_of_idle (hp : r.phase = .idle) (hn : r.bytesReceived ≠ 0) :
    r.fault? = some .impossibleCount := by
  simpa [Registers.fault?, hp] using hn

theorem Registers.fault?_of_done (hp : r.phase = .done) (hn : 9 ≤ r.bytesReceived) :
    r.fault? = some .impossibleCount := by
  have h8 : ¬ r.bytesReceived.toNat ≤ 8 := by bv_omega
  simp [Registers.fault?, hp, h8]

/-- The fault comes before the command, START included (log entry 4). -/
theorem step_of_fault (hr : s.sample.rst = false) (hf : s.regs.fault? = some f) : step s = .fault f := by
  simp [step, edge, hr, hf]

end Faults

/-! ## A placed word -/

/-- Placing a command word for the next edge schedules its sample, whatever width of at least 11 bits is named. -/
theorem State.withFetchWord_toNat (s : State) (w : CommandWord) {nbits : Nat} (hn : 11 ≤ nbits) :
    s.withFetchWord nbits w.toNat = s.schedule (Ports.ofWord w) := by
  have hlt : w.toNat < 2 ^ nbits := w.isLt.trans_le (Nat.pow_le_pow_right (by decide) hn)
  rw [State.withFetchWord, fetchWordFirst, Nat.mod_eq_of_lt hlt, BitVec.ofNat_toNat, BitVec.setWidth_eq]

/-! ## The obligations -/

/-- Settles O8: the edge of the scheduled sample runs the sample's command. -/
theorem stepRunsTheDecodedCommand : Obligations.StepRunsTheDecodedCommand := by
  rintro s p ps _ h hr hl rfl
  rw [step_of_cons h]
  exact edge_of_legal hr hl

/-- Settles O9, by the sample and the rest of an empty schedule. -/
theorem stepTakesAFreeSampleWhenNothingIsScheduled : Obligations.StepTakesAFreeSampleWhenNothingIsScheduled := by
  intro s h
  rw [step, State.sample_of_nil h, State.advance_of_nil h, freePorts]

/-- Settles O10: the placed word's sample comes first, and its edge runs the word's command on the state behind it. -/
theorem placedWordRunsNext : Obligations.PlacedWordRunsNext := by
  intro s w hl
  rw [State.withFetchWord_toNat s w (by decide), step_of_cons (State.schedule_inputs s _)]
  exact (edge_of_legal (Ports.rst_ofWord w) hl).trans (by rw [Ports.word_ofWord])

/-- Settles O12, by the three kinds of register values that fault. -/
theorem unreachableRegisterValuesFault : Obligations.UnreachableRegisterValuesFault := fun _ hr =>
  ⟨fun hp => step_of_fault hr (Registers.fault?_of_reserved hp),
    fun hp hn => step_of_fault hr (Registers.fault?_of_idle hp hn),
    fun hp hn => step_of_fault hr (Registers.fault?_of_done hp hn)⟩

/-- Settles O13: each command is a function of the registers. -/
theorem everyCommandCompletes : Obligations.EveryCommandCompletes := fun i s => ⟨commandRegs i s.regs, exec_eq i s⟩

/-- Settles O16, by the definition of the reset state. -/
theorem resetStateRegisters : Obligations.ResetStateRegisters := rfl

end Sys2Proof.Machine

/-! SUPPORT. The register invariant, and that every step keeps it (spec/10_state.md section 6). -/

namespace Sys2Proof.Machine

/-- A capture register is still 0 after a byte accepted before the register's own position. -/
theorem capture_zero_of_earlier {n k : Count} {c d : Byte} (hn : n ≤ 6) (hz : n ≤ k → c = 0) (hk : n + 1 ≤ k) :
    (if n = k then d else c) = 0 := by
  rw [if_neg (by bv_omega)]
  exact hz (by bv_omega)

namespace Registers.Inv

variable {d : Byte} {r : Registers}

theorem reset : Registers.reset.Inv := by constructor <;> decide

theorem fresh : Registers.fresh.Inv := by constructor <;> decide

/-- A terminal entry keeps the invariant where the count is one that the outcome records (R152 to R154). -/
theorem raiseTerminal {c : Result} (hi : r.Inv) (hok : c = .ok → r.bytesReceived = 8)
    (hinc : c = .incomplete → r.bytesReceived ≤ 7) (hmal : c = .malformed → r.bytesReceived ≤ 2)
    (hmis : c = .checksumMismatch → r.bytesReceived = 8) : (r.raiseTerminal c).Inv :=
  { hi with
    phase_legal := by simp
    idle_reset := by simp
    run_ok := by simp
    count_eight := by simp
    done_ok := fun _ => hok
    done_incomplete := fun _ => hinc
    done_malformed := fun _ => hmal
    done_mismatch := fun _ => hmis }

theorem endOfSource (hi : r.Inv) : r.endOfSource.Inv := by
  by_cases hp : r.phase = .run
  · rw [endOfSource_of_run hp]
    exact hi.raiseTerminal nofun (fun _ => (hi.run_ok hp).2) nofun nofun
  · rwa [endOfSource_of_not_run hp]

/-- A running attempt rejects bytes at the positions of the markers only (R100 to R102). -/
theorem count_le_two_of_rejected (hi : r.Inv) (hp : r.phase = .run)
    (hn : ¬ (r.Accepts d ∨ r.bytesReceived = 7)) : r.bytesReceived ≤ 2 := by
  obtain ⟨-, h7⟩ := hi.run_ok hp
  obtain ⟨h3, h4, h5, h6⟩ := count_of_rejected hn
  have hne : r.bytesReceived ≠ 7 := fun h => hn (.inr h)
  bv_omega

/-- Once the markers are in, `acc` is their sum and that of the captures, position by position (R15). -/
theorem acc_sum_accept (hi : r.Inv) (ha : r.Accepts d) (h3 : 3 ≤ r.bytesReceived + 1) : (r.accept d).acc =
    0x14 + (r.accept d).statusRaw + (r.accept d).minutes + (r.accept d).readingInt + (r.accept d).readingFrac := by
  have hle := ha.count_le
  obtain hn | hn | hn | hn | hn : r.bytesReceived = 2 ∨ r.bytesReceived = 3 ∨ r.bytesReceived = 4 ∨
    r.bytesReceived = 5 ∨ r.bytesReceived = 6 := by bv_omega
  · obtain rfl : d = 0x04 := by simpa [Registers.Accepts, hn] using ha
    simp [Registers.accept, hn, hi.acc_marker, hi.status_zero, hi.minutes_zero, hi.int_zero, hi.frac_zero]
  · simp [Registers.accept, hn, hi.acc_sum, hi.status_zero, hi.minutes_zero, hi.int_zero, hi.frac_zero]
  · simp [Registers.accept, hn, hi.acc_sum, hi.minutes_zero, hi.int_zero, hi.frac_zero]
  · simp [Registers.accept, hn, hi.acc_sum, hi.int_zero, hi.frac_zero]
  · simp [Registers.accept, hn, hi.acc_sum, hi.frac_zero]

/-- The type marker is the first byte that enters `acc` (R101). -/
theorem acc_marker_accept (hi : r.Inv) (ha : r.Accepts d) (h2 : r.bytesReceived + 1 = 2) :
    (r.accept d).acc = 0x10 := by
  have hn : r.bytesReceived = 1 := by bv_omega
  obtain rfl : d = 0x10 := by simpa [Registers.Accepts, hn] using ha
  simp [Registers.accept, hn, hi.acc_start]

/-- An accepted byte keeps the invariant (R100 to R106). -/
theorem accept (hi : r.Inv) (hp : r.phase = .run) (ha : r.Accepts d) : (r.accept d).Inv := by
  have hle := ha.count_le
  have hsucc : (r.accept d).bytesReceived = r.bytesReceived + 1 := rfl
  exact
    { phase_legal := by simp [hp]
      idle_reset := by simp [hp]
      run_ok := fun _ => ⟨(hi.run_ok hp).1, by bv_omega⟩
      count_le := by bv_omega
      count_eight := by bv_omega
      acc_start := fun h1 => if_pos (by bv_omega)
      acc_marker := hi.acc_marker_accept ha
      acc_sum := hi.acc_sum_accept ha
      status_zero := capture_zero_of_earlier hle hi.status_zero
      minutes_zero := capture_zero_of_earlier hle hi.minutes_zero
      int_zero := capture_zero_of_earlier hle hi.int_zero
      frac_zero := capture_zero_of_earlier hle hi.frac_zero
      done_ok := by simp [hp]
      done_incomplete := by simp [hp]
      done_malformed := by simp [hp]
      done_mismatch := by simp [hp] }

/-- The checksum byte ends the attempt with the count 8 and an outcome that says so (R107). -/
theorem acceptChecksum (hi : r.Inv) (h7 : r.bytesReceived = 7) : (r.acceptChecksum d).Inv := by
  have hres : (r.acceptChecksum d).result = .ok ∨ (r.acceptChecksum d).result = .checksumMismatch := by
    rw [acceptChecksum_result]
    split <;> simp
  exact
    { phase_legal := by simp
      idle_reset := by simp
      run_ok := by simp
      count_le := by simp
      count_eight := by simp
      acc_start := by simp
      acc_marker := by simp
      acc_sum := fun _ => hi.acc_sum (by simp [h7])
      status_zero := by simp
      minutes_zero := by simp
      int_zero := by simp
      frac_zero := by simp
      done_ok := by simp
      done_incomplete := fun _ h => by simp [h] at hres
      done_malformed := fun _ h => by simp [h] at hres
      done_mismatch := by simp }

/-- An offered byte keeps the invariant, accepted, rejected or left with the source. -/
theorem offer (hi : r.Inv) (d : Byte) : (offer d r).Inv := by
  by_cases hp : r.phase = .run
  · rw [offer_of_run d hp]
    obtain ⟨ha, e⟩ | ⟨h7, e⟩ | ⟨hn, e⟩ := consume_trichotomy d r
    · exact e ▸ hi.accept hp ha
    · exact e ▸ hi.acceptChecksum h7
    · exact e ▸ hi.raiseTerminal nofun nofun (fun _ => hi.count_le_two_of_rejected hp hn) nofun
  · rwa [offer_of_not_run d hp]

theorem command (hi : r.Inv) (i : Instr) : (commandRegs i r).Inv := by
  cases i with
  | nop => exact hi
  | byte d => exact hi.offer d
  | eos => exact hi.endOfSource
  | byteEos d => exact (hi.offer d).endOfSource
  | start => exact fresh

/-- Every step keeps the register invariant, whatever the ports hold. -/
theorem step {s t : State} (hi : s.regs.Inv) (hs : step s = .next t) : t.regs.Inv := by
  rw [step_regs hs]
  split
  · exact reset
  · exact hi.command _

end Registers.Inv

/-! ## The obligations -/

/-- Settles O18: reset and START establish the invariant, and a byte keeps it at every position. -/
theorem registerInvariantKeptByEveryStep : Obligations.RegisterInvariantKeptByEveryStep :=
  fun _ _ => Registers.Inv.step

/-- Settles O19: the accepted bytes after the step are those of the command, and every command keeps the invariant. -/
theorem historyInvariantKeptByEveryStep : Obligations.HistoryInvariantKeptByEveryStep :=
  fun _ _ _ => HistoryInv.step

/-- Settles O17, field by field on the reset registers. -/
theorem invariantsHoldAtReset : Obligations.InvariantsHoldAtReset := ⟨Registers.Inv.reset, HistoryInv.reset⟩

/-- Settles O21: the invariant leaves out the register values that fault. -/
theorem invariantStatesNeverStop : Obligations.InvariantStatesNeverStop := fun _ hi => exists_step_of_legal hi.legal

end Sys2Proof.Machine

/-! SUPPORT. When a running attempt ends, and the count its outcome records (spec/60_exceptions.md section 2,
spec/70_reset_and_hazards.md section 3). -/

namespace Sys2Proof.Machine

section Ending

variable {d : Byte} {r : Registers} {s t : State}

theorem consume_phase (hp : r.phase = .run) : (consume d r).phase = if r.Accepts d then .run else .done := by
  obtain ⟨ha, e⟩ | ⟨h7, e⟩ | ⟨hn, e⟩ := consume_trichotomy d r
  · rw [e, if_pos ha, Registers.accept_phase, hp]
  · rw [e, if_neg fun ha => ha.count_ne_seven h7, Registers.acceptChecksum_phase]
  · rw [e, if_neg fun ha => hn (.inl ha), Registers.raiseTerminal_phase]

theorem Registers.endOfSource_phase (r : Registers) :
    r.endOfSource.phase = if r.phase = .run then .done else r.phase := by
  by_cases hp : r.phase = .run <;> simp [hp]

/-- A command in RUN ends the attempt, unless it is START or has no end of source and no byte that is not accepted. -/
theorem commandRegs_commandOf_phase (hp : r.phase = .run) (st e v : Bool) (d : Byte) :
    (commandRegs (commandOf st e v d) r).phase =
      if st = true ∨ (e = false ∧ (v = false ∨ r.Accepts d)) then .run else .done := by
  have hoffer : (offer d r).phase = if r.Accepts d then .run else .done := by
    rw [offer_of_run d hp, consume_phase hp]
  cases st with
  | true => simp
  | false =>
    cases e with
    | false =>
      cases v with
      | false => simpa using hp
      | true =>
        rw [commandOf_byte, commandRegs_byte, hoffer]
        exact if_congr (by simp) rfl rfl
    | true =>
      rw [if_neg (by simp)]
      cases v with
      | false => simp [hp]
      | true =>
        rw [commandOf_byteEos, commandRegs_byteEos, Registers.endOfSource_phase, hoffer]
        by_cases ha : r.Accepts d
        · rw [if_pos ha, if_pos rfl]
        · rw [if_neg ha, if_neg (by decide)]

/-- The phase after a step from RUN, by the levels on the ports. -/
theorem step_phase_of_run (hp : s.regs.phase = .run) (h : step s = .next t) :
    t.regs.phase = if s.sample.rst then .idle
      else if s.sample.startI = true ∨
        (s.sample.inEosI = false ∧ (s.sample.inValidI = false ∨ s.regs.Accepts s.sample.inDataI)) then .run
      else .done := by
  rw [step_regs h, apply_ite Registers.phase, Registers.reset_phase, decodeWord_ports, commandRegs_commandOf_phase hp]

/-- An attempt that BYTE_EOS leaves INCOMPLETE counts its last byte (R84, R152). -/
theorem commandRegs_byteEos_bytesReceived_of_accepts (hp : r.phase = .run) (ha : r.Accepts d) :
    (commandRegs (.byteEos d) r).bytesReceived = r.bytesReceived + 1 := by
  rw [commandRegs_byteEos, Registers.endOfSource_bytesReceived, offer_of_run d hp, consume_of_accepts ha,
    Registers.accept_bytesReceived]

end Ending

/-! ## The obligations -/

/-- Settles O42: the cause of the outcome says what the command did to the count, and the register invariant after the
command bounds it. -/
theorem outcomeRecordsTheCount : Obligations.OutcomeRecordsTheCount := by
  intro i s t hi hp h hd
  have hcause := fun c => (result_eq_iff_cause (c := c) hp h hd).1
  obtain rfl := exec_next_iff.1 h
  have ht := hi.command i
  refine ⟨?eos, fun hres hne => ?byteEos, ht.done_incomplete hd, fun hres => ⟨?kept, ht.done_malformed hd hres⟩, ?full⟩
  case eos =>
    rintro - rfl
    exact Registers.endOfSource_bytesReceived _
  case byteEos =>
    obtain rfl | ⟨d, rfl, ha⟩ := hcause .incomplete hres
    · exact absurd rfl hne
    · exact commandRegs_byteEos_bytesReceived_of_accepts hp ha
  case kept =>
    obtain ⟨d, hbyte, hn⟩ := hcause .malformed hres
    rw [State.withRegs_regs, commandRegs_of_rejected hbyte hp (not_or.2 hn), Registers.raiseTerminal_bytesReceived]
  case full => exact fun hres => hres.elim (ht.done_ok hd) (ht.done_mismatch hd)

/-- Settles O44, by `rst` and then by the levels that keep the attempt running. -/
theorem runLeftOnlyByAnOutcomeOrReset : Obligations.RunLeftOnlyByAnOutcomeOrReset := by
  intro s t hp h
  rw [step_phase_of_run hp h]
  cases s.sample.rst with
  | true => exact ⟨by simp, fun _ => rfl⟩
  | false =>
    rw [if_neg Bool.false_ne_true]
    split
    case isTrue hc => exact ⟨⟨fun _ => ⟨rfl, hc⟩, fun _ => rfl⟩, fun hne => absurd rfl hne⟩
    case isFalse hc => exact ⟨⟨nofun, fun hrun => absurd hrun.2 hc⟩, fun _ => rfl⟩

end Sys2Proof.Machine

/-! SUPPORT. The checksum on numbers, and whole attempts (spec/42_checksum_validator.md section 3, spec/40_control.md
section 2). -/

namespace Sys2Proof.Machine

/-! ## The checksum of a byte string, as a number -/

section Numbers

variable (xs : List Byte)

/-- The byte sum is the sum of the numbers modulo 256: the carries are discarded (R122). -/
theorem byteSum_toNat : (byteSum xs).toNat = (xs.map BitVec.toNat).sum % 256 := by
  induction xs with
  | nil => rfl
  | cons x xs ih =>
    rw [byteSum_cons, BitVec.toNat_add, ih, List.map_cons, List.sum_cons]
    omega

theorem ck_toNat : (ck xs).toNat = 0xFF - (xs.map BitVec.toNat).sum % 256 := by
  have hsum := byteSum_toNat xs
  rw [ck_eq_sub]
  bv_omega

end Numbers

/-! ## Scheduled samples as functions of the registers -/

section Scheduled

variable {s : State} {p : Ports} {ps rest : List Ports}

/-- What an edge with the given levels does to the registers, where they are no fault. -/
def portRegs (p : Ports) (r : Registers) : Registers :=
  if p.rst then Registers.reset else commandRegs (decodeWord p.word) r

/-- The registers after the given samples, one an edge. -/
def portsRegs (ps : List Ports) (r : Registers) : Registers := ps.foldl (fun r p => portRegs p r) r

/-- A scheduled sample writes registers by their values and its levels alone. -/
theorem step_portRegs (hl : s.regs.Legal) (h : s.inputs = p :: ps) :
    step s = .next { s with inputs := ps, regs := portRegs p s.regs } := by
  cases hr : p.rst with
  | true => rw [step_scheduled_rst h hr, portRegs, if_pos hr]
  | false => rw [step_scheduled h hr hl, portRegs, if_neg (by simp [hr])]

/-- Samples scheduled one an edge write the registers one after the other; the register invariant keeps each edge clear
of the faults. -/
theorem run_portsRegs (hi : s.regs.Inv) (h : s.inputs = ps ++ rest) :
    Host.Core.run core ps.length s = .next { s with inputs := rest, regs := portsRegs ps s.regs } := by
  induction ps generalizing s with
  | nil =>
    obtain rfl : s.inputs = rest := h
    rfl
  | cons p ps ih =>
    have hstep := step_portRegs hi.legal h
    rw [List.length_cons, run_succ _ hstep]
    exact ih (hi.step hstep) rfl

/-- From START on, the registers are a function of the samples alone (R22, R81). -/
theorem run_of_start {k : Nat} (hl : s.regs.Legal) (h : s.inputs = p :: ps) (hr : p.rst = false)
    (hs : p.startI = true) (hk : k ≤ ps.length) :
    Host.Core.run core (k + 1) s =
      .next { s with inputs := ps.drop k, regs := portsRegs (ps.take k) Registers.fresh } := by
  have hstep : step s = .next { s with inputs := ps, regs := Registers.fresh } := by
    rw [step_levels h hr hl, hs, commandOf_start]
    exact exec_eq .start _
  have hrun := run_portsRegs (s := { s with inputs := ps, regs := Registers.fresh }) Registers.Inv.fresh
    (List.take_append_drop k ps).symm
  rw [List.length_take_of_le hk] at hrun
  rw [run_succ k hstep, hrun]

end Scheduled

/-! ## An attempt whose bytes are all accepted -/

section Accepted

variable {s : State} {r : Registers} {d : Byte} {h : List Byte} {rest : List Ports}

/-- A byte that continues the history with the right markers is accepted (R100 to R106). -/
theorem HistoryInv.accepts_of_markers {bs : List Byte} (hi : HistoryInv r h) (hl : h.length ≤ 6)
    (hm : (h ++ d :: bs).take 3 = [0x02, 0x10, 0x04].take (h ++ d :: bs).length) : r.Accepts d := by
  have hc := hi.count
  by_cases h3 : 3 ≤ h.length
  · exact .inr (.inr (.inr ⟨by bv_omega, by bv_omega⟩))
  · have hd : ([0x02, 0x10, 0x04] : List Byte)[h.length]? = some d := by
      have hget := congrArg (fun l => l[h.length]?) hm
      simpa [List.getElem?_take, show h.length < 3 by omega] using hget.symm
    obtain hn | hn | hn : h.length = 0 ∨ h.length = 1 ∨ h.length = 2 := by omega
    · exact .inl ⟨(hi.count_eq_iff (by decide)).2 hn, by simpa [hn, eq_comm] using hd⟩
    · exact .inr (.inl ⟨(hi.count_eq_iff (by decide)).2 hn, by simpa [hn, eq_comm] using hd⟩)
    · exact .inr (.inr (.inl ⟨(hi.count_eq_iff (by decide)).2 hn, by simpa [hn, eq_comm] using hd⟩))

/-- Up to seven bytes with the right markers are all accepted: the attempt still runs, and they are its history. -/
theorem commandsRegs_of_accepted {bs : List Byte} (hi : HistoryInv r h) (hp : r.phase = .run)
    (hl : (h ++ bs).length ≤ 7) (hm : (h ++ bs).take 3 = [0x02, 0x10, 0x04].take (h ++ bs).length) :
    (commandsRegs (byteCommands bs) r).phase = .run ∧ HistoryInv (commandsRegs (byteCommands bs) r) (h ++ bs) := by
  induction bs generalizing r h with
  | nil => exact ⟨hp, by rw [List.append_nil]; exact hi⟩
  | cons d bs ih =>
    have ha : r.Accepts d := hi.accepts_of_markers (by simp at hl; omega) hm
    rw [commandsRegs_bytes_of_accepts _ hp ha]
    rw [List.append_cons] at hl hm ⊢
    exact ih (hi.accept hp ha) hp hl hm

/-- START and any commands after it: nothing is left of the registers before (R81). -/
theorem run_start_commands {is : List Instr} (hl : s.regs.Legal)
    (hin : s.inputs = commandPorts (.start :: is) ++ rest) :
    Host.Core.run core (is.length + 1) s =
      .next { s with inputs := rest, regs := commandsRegs is Registers.fresh } := by
  have hstep := step_command hin hl
  rw [decodeWord_encode] at hstep
  rw [run_succ _ hstep]
  exact run_commands HistoryInv.fresh rfl

end Accepted

/-! ## The obligations -/

/-- Settles O51, through the sum of the numbers modulo 256; the mask FF keeps every bit. -/
theorem checksumOfAByteString : Obligations.ChecksumOfAByteString := by
  refine fun xs => ⟨ck_toNat xs, ?_⟩
  rw [ck_eq_sub, ← byteSum_toNat, BitVec.ofNat_toNat, BitVec.setWidth_eq]
  exact BitVec.and_allOnes.symm

/-- Settles O52, by whether the markers are right and then whether the checksum is. -/
theorem eightBytesDecideTheAttempt : Obligations.EightBytesDecideTheAttempt := by
  intro s b0 b1 b2 b3 b4 b5 b6 b7 rest hl hin
  have hrun := run_attempt (bs := [b0, b1, b2, b3, b4, b5, b6, b7]) hl hin
  by_cases hm : b0 = 0x02 ∧ b1 = 0x10 ∧ b2 = 0x04
  · obtain ⟨rfl, rfl, rfl⟩ := hm
    rw [commandsRegs_of_markers] at hrun
    by_cases hck : b7 = ck [0x10, 0x04, b3, b4, b5, b6]
    · rw [Registers.acceptChecksum_of_right hck] at hrun
      exact ⟨_, hrun, rfl, rfl, rfl, iff_of_false nofun (not_not_intro ⟨rfl, rfl, rfl⟩),
        iff_of_true rfl ⟨rfl, rfl, rfl, hck⟩, iff_of_false nofun fun ⟨_, _, _, hne⟩ => hne hck,
        fun _ b => outputs_of_reading b rfl, fun hne => absurd rfl hne⟩
    · rw [Registers.acceptChecksum_of_wrong hck] at hrun
      exact ⟨_, hrun, rfl, rfl, rfl, iff_of_false nofun (not_not_intro ⟨rfl, rfl, rfl⟩),
        iff_of_false nofun fun ⟨_, _, _, heq⟩ => hck heq, iff_of_true rfl ⟨rfl, rfl, rfl, hck⟩, nofun, fun _ _ => rfl⟩
  · obtain ⟨r, hr⟩ := commandsRegs_of_wrong_marker [b3, b4, b5, b6, b7] hm
    rw [hr] at hrun
    exact ⟨_, hrun, rfl, rfl, rfl, iff_of_true rfl hm, iff_of_false nofun fun ⟨h0, h1, h2, _⟩ => hm ⟨h0, h1, h2⟩,
      iff_of_false nofun fun ⟨h0, h1, h2, _⟩ => hm ⟨h0, h1, h2⟩, nofun, fun _ _ => rfl⟩

/-- Settles O54: the bytes are all accepted, and the end of the source keeps their count. -/
theorem shortSourceIsIncomplete : Obligations.ShortSourceIsIncomplete := by
  intro s bs rest hl hlen hm hin
  obtain ⟨hp, hi⟩ := commandsRegs_of_accepted (h := []) HistoryInv.fresh rfl hlen hm
  have hcount : (byteCommands bs ++ [Instr.eos]).length = bs.length + 1 := by simp [byteCommands]
  have hrun := run_start_commands (is := byteCommands bs ++ [.eos]) hl hin
  rw [commandsRegs_append, commandsRegs_cons, commandsRegs_nil, commandRegs_eos, Registers.endOfSource_of_run hp,
    hcount] at hrun
  exact ⟨_, hrun, rfl, rfl, rfl, hi.count.symm, fun _ => rfl⟩

/-- Settles O55: from START on both runs have the registers that the shared samples write. -/
theorem startIsolatesAttempts : Obligations.StartIsolatesAttempts :=
  fun _ _ _ _ _ hls hlu hs hu hr hst hk => ⟨_, _, run_of_start hls hs hr hst hk, run_of_start hlu hu hr hst hk, rfl⟩

end Sys2Proof.Machine

/-! SUPPORT. The assembler's line: what is written for a command, and how it is read (spec/30_encoding.md section 5). -/

namespace Sys2Proof.Machine

/-! ## Hexadecimal digits -/

section Digits

/-- A character that ends a word of a line, or the line (log entry 8). -/
abbrev IsBreak (c : Char) : Prop := c = ';' ∨ c = ' ' ∨ c = '\t'

theorem not_isBreak_hexDigit {n : Nat} (hn : n < 16) : ¬ IsBreak (hexDigit n) := by
  interval_cases n <;> simp [hexDigit]

variable (d : Byte)

/-- The two digits written for a byte are read as that byte: a finite fact, evaluated on all 256 bytes. -/
theorem readByte_writeByte : readByte (writeByte d) = some d := by
  revert d
  decide

theorem not_isBreak_of_mem_writeByte : ∀ c ∈ writeByte d, ¬ IsBreak c := by
  have hd := d.isLt
  simp only [writeByte, List.forall_mem_cons]
  exact ⟨not_isBreak_hexDigit (by omega), not_isBreak_hexDigit (by omega), nofun⟩

end Digits

/-! ## The words of a line -/

section Words

variable {w : List Char} (cs : List Char)

theorem lineWords_comment : lineWords (';' :: cs) = [] := rfl

/-- A character of a word joins the word that follows it. -/
theorem lineWords_cons_of_not_isBreak {c : Char} (hc : ¬ IsBreak c) {v : List Char} {vs : List (List Char)}
    (hcs : lineWords cs = v :: vs) : lineWords (c :: cs) = (c :: v) :: vs := by
  obtain ⟨hsemi, hblank⟩ := not_or.1 hc
  rw [lineWords, if_neg hsemi, if_neg hblank, hcs]

/-- A blank ends the word before it. -/
theorem lineWords_append_blank (hw : ∀ c ∈ w, ¬ IsBreak c) : lineWords (w ++ ' ' :: cs) = w :: lineWords cs := by
  induction w with
  | nil => rfl
  | cons c w ih =>
    obtain ⟨hc, hw⟩ := List.forall_mem_cons.1 hw
    exact lineWords_cons_of_not_isBreak _ hc (ih hw)

/-- What may follow a word without adding a word to the line. -/
def EndsLine (cs : List Char) : Prop := ∀ w, w ≠ [] → (∀ c ∈ w, ¬ IsBreak c) → lineWords (w ++ cs) = [w]

theorem endsLine_nil : EndsLine [] := by
  intro w hne hw
  rw [List.append_nil]
  induction w with
  | nil => exact absurd rfl hne
  | cons c w ih =>
    obtain ⟨hc, hw⟩ := List.forall_mem_cons.1 hw
    cases w with
    | nil =>
      obtain ⟨hsemi, hblank⟩ := not_or.1 hc
      rw [lineWords, if_neg hsemi, if_neg hblank, lineWords]
    | cons c' w => exact lineWords_cons_of_not_isBreak _ hc (ih (List.cons_ne_nil _ _) hw)

theorem endsLine_comment : EndsLine (' ' :: ';' :: cs) := fun _ _ hw => by
  rw [lineWords_append_blank _ hw, lineWords_comment]

end Words

/-! ## The line of a command -/

section Line

variable {i : Instr} {cs line : List Char}

/-- The words of the line written for a command: the mnemonic, and a byte's two digits (R68). -/
def commandWords : Instr → List (List Char)
  | .nop => [['N', 'O', 'P']]
  | .byte d => [['B', 'Y', 'T', 'E'], writeByte d]
  | .eos => [['E', 'O', 'S']]
  | .byteEos d => [['B', 'Y', 'T', 'E', '_', 'E', 'O', 'S'], writeByte d]
  | .start => [['S', 'T', 'A', 'R', 'T']]

theorem lineWords_mnemonic_operand {m : List Char} (hm : ∀ c ∈ m, ¬ IsBreak c) (d : Byte) (hcs : EndsLine cs) :
    lineWords (m ++ ' ' :: (writeByte d ++ cs)) = [m, writeByte d] := by
  rw [lineWords_append_blank _ hm, hcs (writeByte d) (List.cons_ne_nil _ _) (not_isBreak_of_mem_writeByte d)]

theorem lineWords_writeLine_append (i : Instr) (hcs : EndsLine cs) :
    lineWords (writeLine i ++ cs) = commandWords i := by
  cases i with
  | nop => exact hcs _ (by simp [writeLine]) (by simp [writeLine])
  | byte d => exact lineWords_mnemonic_operand (m := ['B', 'Y', 'T', 'E']) (by simp) d hcs
  | eos => exact hcs _ (by simp [writeLine]) (by simp [writeLine])
  | byteEos d =>
    exact lineWords_mnemonic_operand (m := ['B', 'Y', 'T', 'E', '_', 'E', 'O', 'S']) (by simp) d hcs
  | start => exact hcs _ (by simp [writeLine]) (by simp [writeLine])

/-- A line with a command's words assembles to that command alone: the mnemonic picks the form, and the operand is
read. -/
theorem assembleLine_of_lineWords (h : lineWords line = commandWords i) : assembleLine line = some [i] := by
  rw [assembleLine, h]
  cases i with
  | nop => rfl
  | byte d => exact congrArg (Option.bind · fun b => some [Instr.byte b]) (readByte_writeByte d)
  | eos => rfl
  | byteEos d => exact congrArg (Option.bind · fun b => some [Instr.byteEos b]) (readByte_writeByte d)
  | start => rfl

theorem assembleLine_writeLine_append (i : Instr) (hcs : EndsLine cs) : assembleLine (writeLine i ++ cs) = some [i] :=
  assembleLine_of_lineWords (lineWords_writeLine_append i hcs)

end Line

/-! ## The obligation -/

/-- Settles O57: neither the end of the line nor a comment adds a word to the command's own. -/
theorem assemblerReadsWhatItWrites : Obligations.AssemblerReadsWhatItWrites := fun i comment =>
  ⟨by simpa using assembleLine_writeLine_append i endsLine_nil,
    assembleLine_writeLine_append i (endsLine_comment comment)⟩

end Sys2Proof.Machine
